-- ==== Sys2Proof/Word.lean ====
section
/-!
DEFINITION. The word of the machine. A cell, a register, an operand and a queue entry hold one signed integer
(spec/00_scope.md R5, spec/20_memory.md R50); there are no bytes and no bits (spec/20_memory.md R58), so the
word is an integer and the range a value must lie in is a check of its own (`inRange`, Machine/Ops.lean).
-/

namespace Sys2Proof

/-- The content of a cell, a register or a queue entry, or an address while it is computed: an exact signed
integer (R5, R57). -/
abbrev Word := Int

end Sys2Proof
end

