-- ==== Sys2Proof/Syntax.lean ====
section
/-!
DEFINITION. The instructions (spec/30_encoding.md R80): one constructor per row of the opcode table. An instruction
is what the instruction word alone says: the opcode and one mode per parameter, in declaration order (R82, R83).
The parameter words are read from memory by the cycle, after decode (R95, spec/40_execution_cycle.md R105).
-/

namespace Sys2Proof

/-- The addressing modes (R84, R88). -/
inductive Mode where
  | position
  | immediate
  | relative
  deriving DecidableEq, Repr

/-- The ten instructions. A parameter `a`, `b` or `d` is a mode; `d` is that of an output parameter. -/
inductive Instr where
  /-- opcode 1, R130 -/
  | add (a b d : Mode)
  /-- opcode 2, R131 -/
  | mul (a b d : Mode)
  /-- opcode 3, the table's `in`, R160 -/
  | inp (d : Mode)
  /-- opcode 4, R161 -/
  | out (a : Mode)
  /-- opcode 5, R150 -/
  | jt (a b : Mode)
  /-- opcode 6, R151 -/
  | jf (a b : Mode)
  /-- opcode 7, R140 -/
  | lt (a b d : Mode)
  /-- opcode 8, R141 -/
  | eq (a b d : Mode)
  /-- opcode 9, R170 -/
  | arb (a : Mode)
  /-- opcode 99, R171 -/
  | halt
  deriving DecidableEq, Repr

/-- The sub-reasons of `IllegalInstruction` (R90 to R94, spec/60_exceptions.md R201). -/
inductive IllegalReason where
  | negativeWord
  | unknownOpcode
  | badModeDigit
  | immediateOutput
  | excessDigits
  deriving DecidableEq, Repr

end Sys2Proof
end

