-- ==== Sys2Proof/WellFormed.lean ====
section
/-!
DEFINITION. Which terms of `Instr` are instructions: an output parameter is not in immediate mode
(spec/30_encoding.md R88).
-/

namespace Sys2Proof

/-- A mode an output parameter may have (R88). -/
def Mode.writable : Mode → Bool
  | .position => true
  | .immediate => false
  | .relative => true

/-- The modes are legal for the roles of the parameters (R88). -/
def Instr.wellFormed : Instr → Bool
  | .add _ _ d => d.writable
  | .mul _ _ d => d.writable
  | .inp d => d.writable
  | .out _ => true
  | .jt _ _ => true
  | .jf _ _ => true
  | .lt _ _ d => d.writable
  | .eq _ _ d => d.writable
  | .arb _ => true
  | .halt => true

end Sys2Proof
end

