-- ==== Sys2Proof/Decode.lean ====
section
/-!
DEFINITION. Decode and encode (spec/30_encoding.md). Decode is total on integers: an instruction word gives an
instruction or the reason it is illegal; the checks are made in the order of R90 to R94.
-/

namespace Sys2Proof

/-- `digit(w, k)` (spec/00_scope.md R11): the decimal digit of position `k`, 0 the least significant. -/
def digit (w k : Nat) : Nat := w / 10 ^ k % 10

/-- The mode a mode digit stands for (R84); 3 to 9 stand for none (R92). -/
def modeOfDigit : Nat → Option Mode
  | 0 => some .position
  | 1 => some .immediate
  | 2 => some .relative
  | _ => none

/-- The digit of a mode (R84). -/
def modeDigit : Mode → Nat
  | .position => 0
  | .immediate => 1
  | .relative => 2

/-- `M[k]` of an input parameter: `digit(w, k + 1)` (R82), in range (R92). -/
def inputMode (w k : Nat) : Except IllegalReason Mode :=
  match modeOfDigit (digit w (k + 1)) with
  | some m => .ok m
  | none => .error .badModeDigit

/-- `M[k]` of the output parameter: in range (R92), and not immediate (R93). -/
def outputMode (w k : Nat) : Except IllegalReason Mode := do
  let m ← inputMode w k
  if m.writable then pure m else .error .immediateOutput

/-- No digit stands above the `n` declared mode digits (R94). -/
def noExcess (w n : Nat) (i : Instr) : Except IllegalReason Instr :=
  if w / 10 ^ (n + 2) = 0 then .ok i else .error .excessDigits

/-- Format IIO (R86). -/
def decodeIIO (mk : Mode → Mode → Mode → Instr) (w : Nat) : Except IllegalReason Instr := do
  let a ← inputMode w 1
  let b ← inputMode w 2
  let d ← outputMode w 3
  noExcess w 3 (mk a b d)

/-- Format II (R86). -/
def decodeII (mk : Mode → Mode → Instr) (w : Nat) : Except IllegalReason Instr := do
  let a ← inputMode w 1
  let b ← inputMode w 2
  noExcess w 2 (mk a b)

/-- Format I (R86). -/
def decodeI (mk : Mode → Instr) (w : Nat) : Except IllegalReason Instr := do
  let a ← inputMode w 1
  noExcess w 1 (mk a)

/-- Format O (R86). -/
def decodeO (mk : Mode → Instr) (w : Nat) : Except IllegalReason Instr := do
  let d ← outputMode w 1
  noExcess w 1 (mk d)

/-- Decode of a word that is not negative, by its opcode `w mod 100` (R82, R91). -/
def decodeNat (w : Nat) : Except IllegalReason Instr :=
  match w % 100 with
  | 1 => decodeIIO .add w
  | 2 => decodeIIO .mul w
  | 3 => decodeO .inp w
  | 4 => decodeI .out w
  | 5 => decodeII .jt w
  | 6 => decodeII .jf w
  | 7 => decodeIIO .lt w
  | 8 => decodeIIO .eq w
  | 9 => decodeI .arb w
  | 99 => noExcess w 0 .halt
  | _ => .error .unknownOpcode

/-- Decode of an instruction word (spec/40_execution_cycle.md R102). A negative word is illegal (R90). -/
def decode (w : Word) : Except IllegalReason Instr :=
  if w < 0 then .error .negativeWord else decodeNat w.toNat

/-- The opcode (R80). -/
def opcodeOf : Instr → Nat
  | .add _ _ _ => 1
  | .mul _ _ _ => 2
  | .inp _ => 3
  | .out _ => 4
  | .jt _ _ => 5
  | .jf _ _ => 6
  | .lt _ _ _ => 7
  | .eq _ _ _ => 8
  | .arb _ => 9
  | .halt => 99

/-- `n`, the number of parameters (R80, R81). -/
def paramCount : Instr → Nat
  | .add _ _ _ => 3
  | .mul _ _ _ => 3
  | .inp _ => 1
  | .out _ => 1
  | .jt _ _ => 2
  | .jf _ _ => 2
  | .lt _ _ _ => 3
  | .eq _ _ _ => 3
  | .arb _ => 1
  | .halt => 0

/-- The length in cells, `1 + n` (R81). -/
def lengthOf (i : Instr) : Nat := 1 + paramCount i

/-- The instruction word of format IIO: `10000*C + 1000*B + 100*A + opcode` (R86, R89). -/
def encodeIIO (op : Nat) (a b d : Mode) : Nat := 10000 * modeDigit d + 1000 * modeDigit b + 100 * modeDigit a + op

/-- The instruction word of format II (R86, R89). -/
def encodeII (op : Nat) (a b : Mode) : Nat := 1000 * modeDigit b + 100 * modeDigit a + op

/-- The instruction word of formats I and O (R86, R89). -/
def encodeI (op : Nat) (a : Mode) : Nat := 100 * modeDigit a + op

/-- The instruction word of an instruction as a natural number (R89). -/
def encodeNat : Instr → Nat
  | .add a b d => encodeIIO 1 a b d
  | .mul a b d => encodeIIO 2 a b d
  | .inp d => encodeI 3 d
  | .out a => encodeI 4 a
  | .jt a b => encodeII 5 a b
  | .jf a b => encodeII 6 a b
  | .lt a b d => encodeIIO 7 a b d
  | .eq a b d => encodeIIO 8 a b d
  | .arb a => encodeI 9 a
  | .halt => 99

/-- The instruction word of an instruction (R89). -/
def encode (i : Instr) : Word := encodeNat i

/-- Cell `k` of a pattern of bits, 64 bits a cell, the first the least significant, each a signed integer: how the
numbered bits of the opcode table lie in cells (log 4; the machine itself has no bits). -/
def cellOfBits (bits k : Nat) : Word :=
  let c : Nat := bits / 2 ^ (64 * k) % 2 ^ 64
  if c < 2 ^ 63 then (c : Int) else (c : Int) - 2 ^ 64

/-- What the decoder reads from an instruction whose bits are `w` (log 4). The parameter words play no part in
decode (R95). -/
def decodeTableWord (nbits w : Nat) : Option Instr :=
  match decode (cellOfBits (w % 2 ^ nbits) 0) with
  | .ok i => some i
  | .error _ => none

end Sys2Proof
end

