-- ==== Sys2Proof/Config.lean ====
section
/-!
DEFINITION. What one build of the hardware fixes (spec/00_scope.md R5 to R9) and the one free value. The parameters
are plain data that the state carries and no step writes, so a statement about every state is one about every
setting (log 1).
-/

namespace Sys2Proof

/-- The two configurations of CORE (R2). -/
inductive Topology where
  | single
  | network
  deriving DecidableEq, Repr

/-- `STARVE_POLICY` (R9): what `in` does when the input source has nothing to supply. -/
inductive StarvePolicy where
  | suspend
  | fatal
  | signal
  deriving DecidableEq, Repr

/-- `SOURCE_KIND` (R9). -/
inductive SourceKind where
  | queue
  | callback
  deriving DecidableEq, Repr

/-- `SINK_KIND` (R9). -/
inductive SinkKind where
  | record
  | callback
  deriving DecidableEq, Repr

/-- What `LOAD` fixes for one engine (spec/60_exceptions.md R231): `CAPACITY` (R7) and the three straps (R9). -/
structure Straps where
  capacity : Nat
  starve : StarvePolicy
  source : SourceKind
  sink : SinkKind
  deriving DecidableEq, Repr

/-- What is fixed for the whole machine: the configuration (R2), `XLEN` (R5; `none` is unbounded) and
`N_ENGINES` (R8). -/
structure Config where
  topology : Topology
  xlen : Option Nat
  nEngines : Nat
  deriving DecidableEq, Repr

/-- `RESERVED_ADDR` (R8). -/
def Config.reservedAddr : Int := 255

/-- `NAT_TARGET` (R8). -/
def Config.natTarget : Nat := 0

/-- `NO_VALUE` (R8): what a starved `in` delivers under `SIGNAL`. -/
def Config.noValue : Word := -1

/-- The parameters at their defaults (R5, R8), single-engine (DESIGN CHOICE, log 2). -/
def Config.default : Config where
  topology := .single
  xlen := some 64
  nEngines := 50

/-- The default capacity (R7), and the straps of an engine with no pre-loaded queue (R9; log 2). -/
def Straps.default : Straps where
  capacity := 1000000
  starve := .suspend
  source := .queue
  sink := .record

/-- The straps of every engine of the network (R9). -/
def Straps.network (capacity : Nat) : Straps where
  capacity := capacity
  starve := .signal
  source := .queue
  sink := .callback

/-- FREE VALUE (log 5). The host's answer to the `draw`-th question a `CALLBACK` input source of engine `engine`
was asked: `some v` or nothing to supply (spec/60_exceptions.md R227). It has no body, so nothing can be proved of
the answer it gives. -/
opaque Config.hostAnswer (engine draw : Nat) : Option Word

end Sys2Proof
end

