-- ==== Sys2Proof/Machine/State.lean ====
section
/-!
DEFINITION. The state of the machine (spec/10_state.md) as plain data, its reset (R45, spec/70_reset_and_hazards.md
R300), and the reasons a step can stop. A fault of the SPEC is no stop here: `raise` gives a next state in which the
engine is `Faulted` (spec/60_exceptions.md R208).
-/

namespace Sys2Proof.Machine

/-- The lifecycle (spec/10_state.md R25, R26). -/
inductive Lifecycle where
  | ready
  | running
  | waitingForInput
  | halted
  | faulted
  deriving DecidableEq, Repr

/-- The fault causes (spec/60_exceptions.md R200). -/
inductive FaultCause where
  | illegalInstruction
  | illegalAddress
  | inputUnderflow
  | overflow
  | illegalDestination
  deriving DecidableEq, Repr

/-- What a cycle returns to its driver (spec/40_execution_cycle.md R121), and `idle`, what a command returns that
ran no cycle (R115). -/
inductive Event where
  | complete
  | output (v : Word)
  | halt
  | suspend
  | stall
  | fault
  | idle
  deriving DecidableEq, Repr

/-- The status of the network (spec/10_state.md R39). -/
inductive NetStatus where
  | running
  | terminated
  | faulted
  deriving DecidableEq, Repr

/-- What `raise` is given (spec/60_exceptions.md R208): the cause, the sub-reason of `IllegalInstruction`, the
information. -/
structure Trap where
  cause : FaultCause
  reason : Option IllegalReason
  info : Option Int
  deriving DecidableEq, Repr

/-- `net_fault` (spec/10_state.md R40): the engine, and the cause and the information of its fault (log 22). -/
structure NetFault where
  engine : Nat
  cause : Option FaultCause
  info : Option Int
  deriving DecidableEq, Repr

/-- What can be observed of the network (spec/60_exceptions.md R248): a triple delivered for a sender, a pair
re-injected by the monitor. -/
inductive NetEvent where
  | delivered (sender : Nat) (dest x y : Word)
  | reinjected (x y : Word)
  deriving DecidableEq, Repr

/-- A memory: the cells that do not hold 0, by rising address (spec/20_memory.md R50, R52; log 13). A cell that is
not listed holds 0. -/
abbrev Memory := List (Nat × Word)

/-- One engine (spec/10_state.md R20 to R32). `handed` and `draws` are the model's own (logs 9 and 5). -/
structure Engine where
  straps : Straps
  mem : Memory
  ip : Word
  rb : Word
  life : Lifecycle
  lastOutput : Option Word
  inputFailed : Bool
  faultCause : Option FaultCause
  faultReason : Option IllegalReason
  faultInfo : Option Int
  inq : List Word
  outLog : List Word
  handed : List Word
  draws : Nat
  deriving DecidableEq, Repr

/-- The machine: its configuration, its engines, the network's state (spec/10_state.md R35 to R41), and the event
the last cycle returned (`reply`, log 8) and the network's observation (`netLog`, log 9), which are the model's own.
`cursor` is the engine that runs. -/
structure State where
  cfg : Config
  eng : List Engine
  acc : List (List Word)
  natHeld : Option (Word × Word)
  natLastY : Option Word
  netState : NetStatus
  netAnswer : Option Word
  netFault : Option NetFault
  cursor : Nat
  reply : Option Event
  netLog : List NetEvent
  deriving DecidableEq, Repr

/-- Why a step can stop. -/
inductive Fault where
  /-- Raised by `onEngine`, `execOut` and `cycle` when `cursor` names no engine of the state. No constructed machine is
  in such a state and no step leads to one. Safe. -/
  | noEngine
  deriving DecidableEq, Repr

/-- Why a step can be refused. -/
inductive Refusal where
  /-- Raised by an arm of `exec` whose instruction has no meaning yet. No arm does. Safe. -/
  | notModelled (mnemonic : String)
  deriving DecidableEq, Repr

/-- An engine right after construction (spec/70_reset_and_hazards.md R300): `straps`, `mem` and `inq` from the
host, everything else as spec/10_state.md R45 says. -/
def Engine.fresh (straps : Straps) (mem : Memory) (inq : List Word) : Engine where
  straps := straps
  mem := mem
  ip := 0
  rb := 0
  life := .ready
  lastOutput := none
  inputFailed := false
  faultCause := none
  faultReason := none
  faultInfo := none
  inq := inq
  outLog := []
  handed := []
  draws := 0

/-- A machine right after construction from its engines (spec/10_state.md R45, spec/60_exceptions.md R241). -/
def State.fresh (cfg : Config) (eng : List Engine) (acc : List (List Word)) : State where
  cfg := cfg
  eng := eng
  acc := acc
  natHeld := none
  natLastY := none
  netState := .running
  netAnswer := none
  netFault := none
  cursor := 0
  reply := none
  netLog := []

/-- The machine right after reset: one engine with the default parameters and the empty program, which
spec/70_reset_and_hazards.md R301 accepts (log 2). -/
def State.reset : State := .fresh .default [.fresh .default [] []] []

end Sys2Proof.Machine
end

