-- ==== Sys2Proof/Machine/Ops.lean ====
section
/-!
DEFINITION. The named operations on memory, on the registers and on the machine, taking a fault, and the I/O channel
of an engine.
-/

namespace Sys2Proof.Machine

/-! ### Values (spec/00_scope.md R5) -/

/-- `inrange(v)`: `VMIN <= v and v <= VMAX`; every integer is in range when `XLEN` is unbounded (R5, R11). -/
def inRange (c : Config) (v : Int) : Bool :=
  match c.xlen with
  | none => true
  | some n => decide (-(2 ^ (n - 1)) ≤ v ∧ v ≤ 2 ^ (n - 1) - 1)

/-! ### Memory (spec/20_memory.md) -/

/-- The list is in its canonical form from address `lo` on: addresses rise strictly, no cell holds 0. -/
def Memory.wfFrom : Nat → Memory → Bool
  | _, [] => true
  | lo, (a, v) :: m => decide (lo ≤ a) && decide (v ≠ 0) && Memory.wfFrom (a + 1) m

/-- The canonical form of a memory. -/
def Memory.wf (m : Memory) : Bool := Memory.wfFrom 0 m

/-- The content of a cell: 0 where none is listed (R52). -/
def Memory.read : Memory → Nat → Word
  | [], _ => 0
  | (b, v) :: m, a => if a = b then v else Memory.read m a

/-- One cell put at the front of a canonical list, left out if it holds 0. -/
def Memory.put (a : Nat) (v : Word) (m : Memory) : Memory := if v = 0 then m else (a, v) :: m

/-- `mem[a] <- v`, the canonical form kept. -/
def Memory.write : Memory → Nat → Word → Memory
  | [], a, v => Memory.put a v []
  | (b, u) :: m, a, v =>
    if a < b then Memory.put a v ((b, u) :: m)
    else if a = b then Memory.put a v m
    else (b, u) :: Memory.write m a v

/-- The memory with the given cells from address `a` on and 0 elsewhere (R52). -/
def Memory.ofList : Nat → List Word → Memory
  | _, [] => []
  | a, v :: vs => Memory.put a v (Memory.ofList (a + 1) vs)

/-- `0 <= a < CAPACITY`. -/
def inMemory (e : Engine) (a : Int) : Bool := decide (0 ≤ a ∧ a < e.straps.capacity)

/-! ### The faults an engine can raise (spec/60_exceptions.md R200 to R204) -/

/-- `IllegalInstruction(reason, w)` (R201). -/
def illegalInstruction (reason : IllegalReason) (w : Word) : Trap := ⟨.illegalInstruction, some reason, some w⟩

/-- `IllegalAddress(a)` (R202). -/
def illegalAddress (a : Int) : Trap := ⟨.illegalAddress, none, some a⟩

/-- `InputUnderflow()` (R203). -/
def inputUnderflow : Trap := ⟨.inputUnderflow, none, none⟩

/-- `Overflow(r)` (R204). -/
def overflow (r : Int) : Trap := ⟨.overflow, none, some r⟩

/-- The numeric tag of a cause (R200). -/
def causeCode : FaultCause → Nat
  | .illegalInstruction => 1
  | .illegalAddress => 2
  | .inputUnderflow => 3
  | .overflow => 4
  | .illegalDestination => 5

/-! ### Access primitives (spec/20_memory.md R54, R55) -/

/-- The range check of an address. -/
def checkAddress (e : Engine) (a : Int) : Except Trap Unit :=
  if inMemory e a then .ok () else .error (illegalAddress a)

/-- `MemRead(a, 1)` (R54). -/
def memRead (e : Engine) (a : Int) : Except Trap Word :=
  if inMemory e a then .ok (e.mem.read a.toNat) else .error (illegalAddress a)

/-- `MemWrite(a, 1, v)` (R55). -/
def memWrite (e : Engine) (a : Int) (v : Word) : Except Trap Engine :=
  if inMemory e a then .ok { e with mem := e.mem.write a.toNat v } else .error (illegalAddress a)

/-! ### Registers (spec/10_state.md R20 to R22) -/

/-- `ip <- v`. -/
def setIp (e : Engine) (v : Word) : Engine := { e with ip := v }

/-- `ip <- ip + n`: sequential advance by an instruction of `n` cells (R21). It needs no overflow check (R21). -/
def advance (e : Engine) (n : Nat) : Engine := setIp e (e.ip + n)

/-- `rb <- v`. -/
def setRb (e : Engine) (v : Word) : Engine := { e with rb := v }

/-- `state <- l` (R25). -/
def setLife (e : Engine) (l : Lifecycle) : Engine := { e with life := l }

/-- `state <- Running`: a driving command starts or resumes the engine (spec/40_execution_cycle.md R110, R113, R116). -/
def startEngine (e : Engine) : Engine := setLife e .running

/-- The engine executes nothing further (spec/40_execution_cycle.md R119). -/
def isTerminal (e : Engine) : Bool := decide (e.life = .halted ∨ e.life = .faulted)

/-- An ALU result (spec/41_arithmetic.md R133): the exact integer, or `Overflow` outside the range. -/
def exactResult (c : Config) (r : Int) : Except Trap Word := if inRange c r then .ok r else .error (overflow r)

/-! ### The engine that runs -/

/-- The engine `cursor` names. -/
def State.current (s : State) : Option Engine := s.eng[s.cursor]?

/-- The engine `cursor` names becomes `e`. -/
def State.setCurrent (s : State) (e : Engine) : State := { s with eng := s.eng.set s.cursor e }

/-- The event of the cycle, returned to the driver (spec/40_execution_cycle.md R121). -/
def State.answer (s : State) (ev : Event) : State := { s with reply := some ev }

/-! ### Taking a fault (spec/60_exceptions.md R208)

There is no return from a fault (R209): nothing stands beside it. -/

/-- `raise`: `state <- Faulted` and the fault record; `ip` and everything else of the engine stay. -/
def raise (e : Engine) (t : Trap) : Engine :=
  { e with life := .faulted, faultCause := some t.cause, faultReason := t.reason, faultInfo := t.info }

/-- The machine when the cycle of its engine `e` raises `t`: the cycle is abandoned with no effect, the engine is
`Faulted`, the event is `Fault`. -/
def takeTrap (s : State) (e : Engine) (t : Trap) : State := (s.setCurrent (raise e t)).answer .fault

/-- The machine when the cycle of its engine `e` ends: with the engine it leaves and its event, or with a fault
(spec/40_execution_cycle.md R104). -/
def finish (s : State) (e : Engine) : Except Trap (Engine × Event) → State
  | .ok (e', ev) => (s.setCurrent e').answer ev
  | .error t => takeTrap s e t

/-- A cycle that concerns its engine alone: `f` is what the instruction does to the running engine. -/
def onEngine (s : State) (f : Engine → Except Trap (Engine × Event)) : Host.Outcome State Fault Refusal :=
  match s.current with
  | none => .fault .noEngine
  | some e => .next (finish s e (f (startEngine e)))

/-! ### The input source (spec/60_exceptions.md R226, R227) -/

/-- The host's answer to a `CALLBACK` source: any value in range, or nothing to supply (R227, log 5). -/
def callbackAnswer (c : Config) (i : Nat) (e : Engine) : Option Word :=
  match Config.hostAnswer i e.draws with
  | some v => if inRange c v then some v else none
  | none => none

/-- `nextInput()` of engine `i`: the answer of the source, and the engine after it was asked. -/
def nextInput (c : Config) (i : Nat) (e : Engine) : Option Word × Engine :=
  match e.straps.source with
  | .queue =>
    match e.inq with
    | [] => (none, e)
    | v :: q => (some v, { e with inq := q })
  | .callback => (callbackAnswer c i e, { e with draws := e.draws + 1 })

end Sys2Proof.Machine
end

