-- ==== Sys2Proof/Machine/Operands.lean ====
section
/-!
DEFINITION. From parameter to operand (spec/40_execution_cycle.md R105 to R108): steps 3, 4 and 5 of the cycle, for
each format of spec/30_encoding.md R86. All parameter words first, then all input operands, then the output address.
-/

namespace Sys2Proof.Machine

/-- `P[k]` (R105). -/
def param (e : Engine) (k : Nat) : Except Trap Word := memRead e (e.ip + k)

/-- The address a parameter word `p` denotes in position and relative mode: an exact sum (R106, R107,
spec/20_memory.md R57). In immediate mode there is none. -/
def effectiveAddress (e : Engine) (m : Mode) (p : Word) : Int :=
  match m with
  | .position => p
  | .immediate => p
  | .relative => e.rb + p

/-- `operand(k)` of an input parameter with word `p` (R106). -/
def operand (e : Engine) (m : Mode) (p : Word) : Except Trap Word :=
  match m with
  | .position => memRead e (effectiveAddress e .position p)
  | .immediate => .ok p
  | .relative => memRead e (effectiveAddress e .relative p)

/-- `outaddr(n)` of the output parameter with word `p`, range-checked (R107). The mode is not immediate. -/
def outAddress (e : Engine) (m : Mode) (p : Word) : Except Trap Int := do
  let a := effectiveAddress e m p
  checkAddress e a
  pure a

/-- The check of spec/30_encoding.md R93 on the instruction word `w` whose output mode is `m`. Decode makes it, so it
fails only on a term of `Instr` that no word decodes to (log 12). -/
def checkOutput (w : Word) (m : Mode) : Except Trap Unit :=
  if m.writable then .ok () else .error (illegalInstruction .immediateOutput w)

/-- Steps 3 to 5 of format IIO: `in1`, `in2`, `dst`. -/
def resolveIIO (e : Engine) (w : Word) (a b d : Mode) : Except Trap (Word × Word × Int) := do
  checkOutput w d
  let p1 ← param e 1
  let p2 ← param e 2
  let p3 ← param e 3
  let x ← operand e a p1
  let y ← operand e b p2
  let dst ← outAddress e d p3
  pure (x, y, dst)

/-- Steps 3 to 5 of format II: `in1`, `in2`, both resolved whether needed or not (R108). -/
def resolveII (e : Engine) (a b : Mode) : Except Trap (Word × Word) := do
  let p1 ← param e 1
  let p2 ← param e 2
  let x ← operand e a p1
  let y ← operand e b p2
  pure (x, y)

/-- Steps 3 to 5 of format I: `in1`. -/
def resolveI (e : Engine) (a : Mode) : Except Trap Word := do
  let p1 ← param e 1
  operand e a p1

/-- Steps 3 to 5 of format O: `dst`. -/
def resolveO (e : Engine) (w : Word) (d : Mode) : Except Trap Int := do
  checkOutput w d
  let p1 ← param e 1
  outAddress e d p1

end Sys2Proof.Machine
end

