-- ==== Sys2Proof/Machine/Arithmetic.lean ====
section
/-!
DEFINITION. `add` and `mul` (spec/41_arithmetic.md).
-/

namespace Sys2Proof.Machine

/-- Steps 6 to 8 of an instruction that writes one result to memory: compute, write, advance by 4 cells. -/
def writeResult (e : Engine) (dst : Int) (r : Except Trap Word) : Except Trap (Engine × Event) := do
  let v ← r
  let e' ← memWrite e dst v
  pure (advance e' 4, .complete)

/-- `add` (R130). -/
def execAdd (a b d : Mode) (s : State) : Host.Outcome State Fault Refusal :=
  onEngine s fun e => do
    let (x, y, dst) ← resolveIIO e (encode (.add a b d)) a b d
    writeResult e dst (exactResult s.cfg (x + y))

/-- `mul` (R131). -/
def execMul (a b d : Mode) (s : State) : Host.Outcome State Fault Refusal :=
  onEngine s fun e => do
    let (x, y, dst) ← resolveIIO e (encode (.mul a b d)) a b d
    writeResult e dst (exactResult s.cfg (x * y))

end Sys2Proof.Machine
end

