-- ==== Sys2Proof/Machine/BaseHalt.lean ====
section
/-!
DEFINITION. `arb` and `halt` (spec/45_base_halt.md).
-/

namespace Sys2Proof.Machine

/-- `arb` (R170): the operand is read with the old `rb`. -/
def execArb (a : Mode) (s : State) : Host.Outcome State Fault Refusal :=
  onEngine s fun e => do
    let x ← resolveI e a
    let r ← exactResult s.cfg (e.rb + x)
    pure (advance (setRb e r) 2, .complete)

/-- `halt` (R171). `ip` advances by 1 (DEDUCED by the spec, log 16). -/
def execHalt (s : State) : Host.Outcome State Fault Refusal :=
  onEngine s fun e => pure (advance (setLife e .halted) 1, .halt)

end Sys2Proof.Machine
end

