-- ==== Sys2Proof/Machine/Flags.lean ====
section
/-!
DEFINITION. There are no condition codes (spec/10_state.md R24). What is flag-like: the truth values of the
comparisons and the tests of the jumps (spec/42_compare.md R142), the bit `input_failed` (spec/10_state.md R28) and
the register `last_output` (R27).
-/

namespace Sys2Proof.Machine

/-- The truth value a comparison writes: exactly 1 or exactly 0 (spec/42_compare.md R142). -/
def truthWord (b : Bool) : Word := if b then 1 else 0

/-- The truth test of the jumps: any word but 0 is true (spec/42_compare.md R142). -/
def isTrue (v : Word) : Bool := decide (v ≠ 0)

/-- `input_failed <- b` (spec/10_state.md R28). -/
def setInputFailed (e : Engine) (b : Bool) : Engine := { e with inputFailed := b }

/-- `out_log <- out_log ++ [v]` and `last_output <- some v` (spec/10_state.md R27, R32). -/
def recordOutput (e : Engine) (v : Word) : Engine :=
  { e with outLog := e.outLog ++ [v], lastOutput := some v }

end Sys2Proof.Machine
end

