-- ==== Sys2Proof/Machine/Compare.lean ====
section
/-!
DEFINITION. `lt` and `eq` (spec/42_compare.md).
-/

namespace Sys2Proof.Machine

/-- `lt` (R140): a comparison of signed integers. -/
def execLt (a b d : Mode) (s : State) : Host.Outcome State Fault Refusal :=
  onEngine s fun e => do
    let (x, y, dst) ← resolveIIO e (encode (.lt a b d)) a b d
    writeResult e dst (.ok (truthWord (decide (x < y))))

/-- `eq` (R141). -/
def execEq (a b d : Mode) (s : State) : Host.Outcome State Fault Refusal :=
  onEngine s fun e => do
    let (x, y, dst) ← resolveIIO e (encode (.eq a b d)) a b d
    writeResult e dst (.ok (truthWord (decide (x = y))))

end Sys2Proof.Machine
end

