-- ==== Sys2Proof/Machine/Network.lean ====
section
/-!
DEFINITION. The network layer (spec/60_exceptions.md R240 to R259): the router, which is the output sink of a network
engine, the monitor, and the end of a visit.
-/

namespace Sys2Proof.Machine

/-! ### The router (R245 to R247) -/

/-- `eng[d].inq <- eng[d].inq ++ [x, y]` (R246). -/
def enqueue (s : State) (d : Nat) (x y : Word) : State :=
  { s with eng := s.eng.modify d fun e => { e with inq := e.inq ++ [x, y] } }

/-- The network stops with the fault record `f` (spec/10_state.md R39, R40). -/
def failNetwork (s : State) (f : NetFault) : State := { s with netState := .faulted, netFault := some f }

/-- `deliver(d, x, y)` for the sender `i` (R246, R247), and its observation (R248). -/
def deliver (s : State) (i : Nat) (d x y : Word) : State :=
  let seen := { s with netLog := s.netLog ++ [.delivered i d x y] }
  if d = Config.reservedAddr then { seen with natHeld := some (x, y) }
  else if 0 ≤ d ∧ d < s.cfg.nEngines then enqueue seen d.toNat x y
  else failNetwork s ⟨i, some .illegalDestination, some d⟩

/-- `route(i, v)` (R245). -/
def route (s : State) (i : Nat) (v : Word) : State :=
  match s.acc.getD i [] ++ [v] with
  | [d, x, y] => deliver { s with acc := s.acc.set i [] } i d x y
  | vs => { s with acc := s.acc.set i vs }

/-! ### The output sink (R229, R230) -/

/-- `acceptOutput(v)` of the running engine, whose `out` cycle leaves it as `e`: nothing for `RECORD`; for `CALLBACK`
the host is handed the value, and in the network the callback is the router. -/
def acceptOutput (s : State) (e : Engine) (v : Word) : State :=
  match e.straps.sink with
  | .record => s.setCurrent e
  | .callback =>
    match s.cfg.topology with
    | .single => s.setCurrent { e with handed := e.handed ++ [v] }
    | .network => route (s.setCurrent e) s.cursor v

/-! ### The monitor (R250 to R253, R256) -/

/-- `idle()` (R250). -/
def idle (s : State) : Bool := s.eng.all fun e => e.inputFailed && decide (e.inq = [])

/-- The network ends with the answer `y` (R253). -/
def terminate (s : State) (y : Word) : State := { s with netState := .terminated, netAnswer := some y }

/-- The held packet is re-injected to engine `NAT_TARGET` (R252), and its observation (R248). -/
def reinject (s : State) (x y : Word) : State :=
  enqueue { s with natLastY := some y, netLog := s.netLog ++ [.reinjected x y] } Config.natTarget x y

/-- `end_of_pass()` (R251). -/
def endOfPass (s : State) : State :=
  if idle s then
    match s.natHeld with
    | none => s
    | some (x, y) => if s.natLastY = some y then terminate s y else reinject s x y
  else s

/-! ### The scheduler (R243, R244, R254) -/

/-- An engine fault aborts the network (R254). -/
def abortNetwork (s : State) : State :=
  match s.current with
  | some e => failNetwork s ⟨s.cursor, e.faultCause, e.faultInfo⟩
  | none => s

/-- The cursor moves on; after the last engine it returns to 0 and the pass ends (R243). -/
def nextEngine (s : State) : State :=
  if s.cursor + 1 = s.cfg.nEngines then endOfPass { s with cursor := 0 } else { s with cursor := s.cursor + 1 }

/-- What the scheduler does when a visit has ended with the event `ev` (R243, R244). -/
def endVisit (s : State) (ev : Event) : State :=
  if ev = .fault then abortNetwork s
  else if s.netState = .running then nextEngine s
  else s

/-- What the scheduler does after a cycle of a visit: only `Complete` goes on (spec/40_execution_cycle.md R118); any
other event ends the visit. -/
def afterCycle (s : State) : State :=
  match s.reply with
  | some .complete => s
  | some ev => endVisit s ev
  | none => s

end Sys2Proof.Machine
end

