-- ==== Sys2Proof/Machine/InputOutput.lean ====
section
/-!
DEFINITION. `in` and `out` (spec/44_io.md).
-/

namespace Sys2Proof.Machine

/-- `in` that completes with the value `v` (R160): `v` to the destination, `input_failed <- failed`, 2 cells on. -/
def deliverInput (e : Engine) (dst : Int) (v : Word) (failed : Bool) (ev : Event) : Except Trap (Engine × Event) := do
  let e' ← memWrite (setInputFailed e failed) dst v
  pure (advance e' 2, ev)

/-- `in` with nothing to supply (R160), by `STARVE_POLICY`. -/
def starvedInput (e : Engine) (dst : Int) : Except Trap (Engine × Event) :=
  match e.straps.starve with
  | .suspend => .ok (setLife (setInputFailed e true) .waitingForInput, .suspend)
  | .fatal => .error inputUnderflow
  | .signal => deliverInput e dst Config.noValue true .stall

/-- `in` (R160). The source is asked once, after the destination was checked. -/
def execInp (d : Mode) (s : State) : Host.Outcome State Fault Refusal :=
  onEngine s fun e => do
    let dst ← resolveO e (encode (.inp d)) d
    match nextInput s.cfg s.cursor e with
    | (some v, e') => deliverInput e' dst v false .complete
    | (none, e') => starvedInput e' dst

/-- `out` (R161). The value is recorded, handed to the sink within the cycle, and returned in the event. -/
def execOut (a : Mode) (s : State) : Host.Outcome State Fault Refusal :=
  match s.current with
  | none => .fault .noEngine
  | some e =>
    match resolveI (startEngine e) a with
    | .error t => .next (takeTrap s e t)
    | .ok v => .next ((acceptOutput s (advance (recordOutput (startEngine e) v) 2) v).answer (.output v))

end Sys2Proof.Machine
end

