-- ==== Sys2Proof/Machine/Jump.lean ====
section
/-!
DEFINITION. `jt` and `jf` (spec/43_jump.md).
-/

namespace Sys2Proof.Machine

/-- Steps 6 to 8 of a jump: the target unchecked if it is taken (R152), 3 cells on if not. -/
def jumpIf (e : Engine) (taken : Bool) (target : Word) : Engine × Event :=
  (if taken then setIp e target else advance e 3, .complete)

/-- `jt` (R150). -/
def execJt (a b : Mode) (s : State) : Host.Outcome State Fault Refusal :=
  onEngine s fun e => do
    let (x, y) ← resolveII e a b
    pure (jumpIf e (isTrue x) y)

/-- `jf` (R151). -/
def execJf (a b : Mode) (s : State) : Host.Outcome State Fault Refusal :=
  onEngine s fun e => do
    let (x, y) ← resolveII e a b
    pure (jumpIf e (!isTrue x) y)

end Sys2Proof.Machine
end

