-- ==== Sys2Proof/Machine/Cycle.lean ====
section
/-!
DEFINITION. The cycle (spec/40_execution_cycle.md R100 to R104), one step of the network's scheduler within a visit,
and placing an instruction where the next cycle fetches it.
-/

namespace Sys2Proof.Machine

/-- Steps 1 and 2 of the cycle: fetch (R101) and decode (R102). -/
def fetchDecode (e : Engine) : Except Trap Instr := do
  let w ← memRead e e.ip
  match decode w with
  | .ok i => pure i
  | .error r => .error (illegalInstruction r w)

/-- `STEP` (R116): nothing for an engine that is `Halted` or `Faulted` (R119), else one whole cycle of the engine
`cursor` names. -/
def cycle (s : State) : Host.Outcome State Fault Refusal :=
  match s.current with
  | none => .fault .noEngine
  | some e =>
    if isTerminal e then .next (s.answer .idle)
    else
      match fetchDecode e with
      | .error t => .next (takeTrap s e t)
      | .ok i => exec i s

/-- One step of the network (spec/60_exceptions.md R242, R243): a cycle of the visit in progress, and the scheduler's
work when it ends the visit. A network that has ended does nothing further. -/
def networkCycle (s : State) : Host.Outcome State Fault Refusal :=
  if s.netState = .running then
    match cycle s with
    | .next t => .next (afterCycle t)
    | .fault r => .fault r
    | .refused r => .refused r
  else .next s

/-- One cell stored, where the address exists. -/
def placeCell (e : Engine) (a : Int) (v : Word) : Engine :=
  match memWrite e a v with
  | .ok e' => e'
  | .error _ => e

/-- The bits of an instruction (log 4) stored as the four cells of the longest instruction from `ip` on. -/
def placeInstruction (e : Engine) (bits : Nat) : Engine :=
  placeCell (placeCell (placeCell (placeCell e e.ip (cellOfBits bits 0)) (e.ip + 1) (cellOfBits bits 1))
    (e.ip + 2) (cellOfBits bits 2)) (e.ip + 3) (cellOfBits bits 3)

end Sys2Proof.Machine
end

