-- ==== Sys2Proof/Machine/Step.lean ====
section
/-!
DEFINITION. One step of the machine: in the single-engine configuration one `STEP` command
(spec/40_execution_cycle.md R116), in the network one cycle of the scheduler's visit (log 7).
-/

namespace Sys2Proof.Machine

def step (s : State) : Host.Outcome State Fault Refusal :=
  match s.cfg.topology with
  | .single => cycle s
  | .network => networkCycle s

/-- `s` with the instruction whose bits are `w` where `step` fetches next (logs 3 and 4). -/
def State.withFetchWord (s : State) (nbits w : Nat) : State :=
  match s.current with
  | some e => s.setCurrent (placeInstruction e (w % 2 ^ nbits))
  | none => s

end Sys2Proof.Machine
end

