-- ==== Sys2Proof/Machine/Drive.lean ====
section
/-!
DEFINITION. The host's operations on a constructed machine (spec/40_execution_cycle.md R115 to R120): the driving
commands under fuel (R122, log 20), `PUSH`, and the network's scheduler in the words of spec/60_exceptions.md R243.
-/

namespace Sys2Proof.Machine

/-- The driving commands (R115). -/
inductive Command where
  | step
  | run
  | runToOutput
  deriving DecidableEq, Repr

/-- The event ends the command (R116, R117, R118). `idle` is the event of a command that ran no cycle. -/
def endsCommand : Command → Event → Bool
  | .step, _ => true
  | .run, .complete => false
  | .run, .output _ => false
  | .run, .stall => false
  | .run, .halt => true
  | .run, .suspend => true
  | .run, .fault => true
  | .run, .idle => true
  | .runToOutput, ev => decide (ev ≠ .complete)

/-- A command to the engine `cursor` names, of at most `fuel` cycles: the machine when the command returns, its event
in `reply`; `none` where it has not returned by then. -/
def drive (c : Command) : Nat → State → Option State
  | 0, _ => none
  | fuel + 1, s =>
    match cycle s with
    | .next t =>
      match t.reply with
      | some ev => if endsCommand c ev then some t else drive c fuel t
      | none => none
    | .fault _ => none
    | .refused _ => none

/-- `visit(cursor)` (spec/60_exceptions.md R244) before the scheduler looks at its event. -/
def visit (fuel : Nat) (s : State) : Option State := drive .runToOutput fuel s

/-- `net_step()` (spec/60_exceptions.md R243), its visit of at most `fuel` cycles. -/
def netStep (fuel : Nat) (s : State) : Option State :=
  if s.netState = .running then
    match visit fuel s with
    | none => none
    | some t =>
      match t.reply with
      | some ev => some (endVisit t ev)
      | none => none
  else some s

/-- `PUSH(v)` (R120, spec/60_exceptions.md R226, R231): a value to the back of the queue of a single engine whose
source is `QUEUE`. In the network only the router and the monitor append. -/
def hostPush (s : State) (v : Int) : Option State :=
  match s.cfg.topology, s.current with
  | .single, some e =>
    if e.straps.source = .queue ∧ inRange s.cfg v then some (s.setCurrent { e with inq := e.inq ++ [v] }) else none
  | _, _ => none

/-- `STARVE_POLICY` where the host names none (spec/00_scope.md R9): `FATAL` for a pre-loaded queue driven by `RUN`,
else `SUSPEND`. -/
def defaultStarve (inq0 : List Word) (c : Command) : StarvePolicy :=
  if inq0 ≠ [] ∧ c = .run then .fatal else .suspend

end Sys2Proof.Machine
end

