-- ==== Sys2Proof/Machine/Load.lean ====
section
/-!
DEFINITION. Construction of a machine by the host (spec/70_reset_and_hazards.md R300 to R305): `LOAD`, its conditions,
the wire format of a program, and the construction of the network (spec/60_exceptions.md R241). `none` is a refusal:
no machine exists (R301).
-/

namespace Sys2Proof.Machine

/-! ### The conditions (R301) -/

/-- `XLEN` is at least 64 or unbounded (spec/00_scope.md R5). -/
def legalWidth (c : Config) : Bool :=
  match c.xlen with
  | none => true
  | some n => decide (64 ≤ n)

/-- `1 <= CAPACITY`, and `CAPACITY + 3 <= VMAX` at a finite width (spec/00_scope.md R7). -/
def legalCapacity (c : Config) (capacity : Nat) : Bool :=
  decide (1 ≤ capacity) && inRange c (capacity + 3)

/-- The load conditions (b) to (e) (R301). -/
def loadable (c : Config) (straps : Straps) (program inq0 : List Int) : Bool :=
  legalWidth c && legalCapacity c straps.capacity && decide (program.length ≤ straps.capacity)
    && program.all (inRange c) && inq0.all (inRange c)
    && (decide (straps.source = .queue) || decide (inq0 = []))

/-- The network's parameters: `1 <= N_ENGINES <= RESERVED_ADDR` (spec/00_scope.md R8). -/
def legalNetwork (c : Config) : Bool := decide (1 ≤ c.nEngines ∧ (c.nEngines : Int) ≤ Config.reservedAddr)

/-! ### Construction (R300, spec/60_exceptions.md R241) -/

/-- `LOAD(program, inq0, straps)` of a single engine. -/
def load (c : Config) (straps : Straps) (program inq0 : List Int) : Option State :=
  if c.topology = .single ∧ loadable c straps program inq0 then
    some (.fresh c [.fresh straps (.ofList 0 program) inq0] [])
  else none

/-- The engines of the network from engine `i` on, each with its own capacity and program and with its address as its
first input. -/
def networkEngines : Nat → List (Nat × List Int) → List Engine
  | _, [] => []
  | i, (capacity, program) :: loads =>
    .fresh (.network capacity) (.ofList 0 program) [(i : Int)] :: networkEngines (i + 1) loads

/-- The construction of the network: one capacity and one program for each engine. That the engines of one network may
have different capacities is the model's choice (DESIGN CHOICE, log 26): spec/00_scope.md R7 fixes the capacity when an
engine is constructed, R241 names none. -/
def loadNetwork (c : Config) (loads : List (Nat × List Int)) : Option State :=
  if c.topology = .network ∧ legalNetwork c ∧ loads.length = c.nEngines
      ∧ loads.all (fun l => loadable c (.network l.1) l.2 []) then
    some (.fresh c (networkEngines 0 loads) (loads.map fun _ => []))
  else none

/-! ### The wire format (R302) -/

/-- Spaces, tabs and line ends. -/
def isBlank (ch : Char) : Bool := ch = ' ' || ch = '\t' || ch = '\n' || ch = '\r'

/-- A list without the blanks at its front. -/
def dropBlanks : List Char → List Char
  | [] => []
  | ch :: cs => if isBlank ch then dropBlanks cs else ch :: cs

/-- A list without the blanks at its two ends. -/
def trim (cs : List Char) : List Char := (dropBlanks (dropBlanks cs).reverse).reverse

/-- The pieces between the separators `sep`. -/
def splitBy (sep : Char) : List Char → List (List Char)
  | [] => [[]]
  | ch :: cs =>
    if ch = sep then [] :: splitBy sep cs
    else
      match splitBy sep cs with
      | [] => [[ch]]
      | piece :: pieces => (ch :: piece) :: pieces

/-- The items between commas. -/
def splitItems (cs : List Char) : List (List Char) := splitBy ',' cs

/-- The number a list of decimal digits denotes, after the digits already read as `acc`. -/
def readDigits (acc : Nat) : List Char → Option Nat
  | [] => some acc
  | ch :: cs => if '0' ≤ ch ∧ ch ≤ '9' then readDigits (10 * acc + (ch.toNat - 48)) cs else none

/-- At least one digit. -/
def readNumber : List Char → Option Nat
  | [] => none
  | ch :: cs => readDigits 0 (ch :: cs)

/-- `-?[0-9]+`. -/
def readItem (cs : List Char) : Option Int :=
  match cs with
  | '-' :: ds => (readNumber ds).map fun n => -(n : Int)
  | ds => (readNumber ds).map fun n => (n : Int)

/-- The integers of a list of items; none where one of them is no integer. -/
def readItems : List (List Char) → Option (List Int)
  | [] => some []
  | item :: items => do
    let v ← readItem (trim item)
    let vs ← readItems items
    pure (v :: vs)

/-- The program a text denotes (R302). A text of blanks alone is the empty program (log 18). -/
def parseProgram (text : List Char) : Option (List Int) :=
  if trim text = [] then some [] else readItems (splitItems text)

/-- `LOAD` of a program given as text: condition (a) of R301 and then `load`. -/
def loadText (c : Config) (straps : Straps) (text : List Char) (inq0 : List Int) : Option State :=
  match parseProgram text with
  | some program => load c straps program inq0
  | none => none

end Sys2Proof.Machine
end

