-- ==== Sys2Proof/Safety.lean ====
section
/-!
DEFINITION. The terms claims are stated in: what an instruction accesses and in which order, written from
spec/40_execution_cycle.md R103 to R107 and not from the meanings; the launch premises of
spec/70_reset_and_hazards.md R307; the ends of a run; the invariants of the machine.
-/

namespace Sys2Proof.Machine

/-! ### What an instruction accesses (R103 to R107) -/

/-- The modes of the input parameters, in order. -/
def inputModes : Instr → List Mode
  | .add a b _ => [a, b]
  | .mul a b _ => [a, b]
  | .inp _ => []
  | .out a => [a]
  | .jt a b => [a, b]
  | .jf a b => [a, b]
  | .lt a b _ => [a, b]
  | .eq a b _ => [a, b]
  | .arb a => [a]
  | .halt => []

/-- The mode of the output parameter, which is the last parameter. -/
def outputModes : Instr → List Mode
  | .add _ _ d => [d]
  | .mul _ _ d => [d]
  | .inp d => [d]
  | .out _ => []
  | .jt _ _ => []
  | .jf _ _ => []
  | .lt _ _ d => [d]
  | .eq _ _ d => [d]
  | .arb _ => []
  | .halt => []

/-- The content of the cell of parameter `k`. -/
def paramWord (e : Engine) (k : Nat) : Word := e.mem.read (e.ip + k).toNat

/-- The address parameter `k` of mode `m` denotes. -/
def paramAddress (e : Engine) (m : Mode) (k : Nat) : Int := effectiveAddress e m (paramWord e k)

/-- The value of an input parameter `k` of mode `m` whose address, if it has one, exists (R106). -/
def operandValue (e : Engine) (m : Mode) (k : Nat) : Word :=
  match m with
  | .position => e.mem.read (paramAddress e .position k).toNat
  | .immediate => paramWord e k
  | .relative => e.mem.read (paramAddress e .relative k).toNat

/-- The addresses the input parameters of modes `ms`, from parameter `k` on, are read at: none in immediate mode. -/
def operandAddresses (e : Engine) : Nat → List Mode → List Int
  | _, [] => []
  | k, m :: ms =>
    if m = .immediate then operandAddresses e (k + 1) ms
    else paramAddress e m k :: operandAddresses e (k + 1) ms

/-- The address of the output parameter, the last of the `n` parameters. -/
def outputAddresses (e : Engine) (n : Nat) (ms : List Mode) : List Int := ms.map fun m => paramAddress e m n

/-- The addresses of the parameter words, ascending (R105). -/
def paramAddresses (e : Engine) (n : Nat) : List Int := (List.range n).map fun k => e.ip + ((k + 1 : Nat) : Int)

/-- Every address steps 3, 4 and 5 of the cycle access or check, in their order (R103). -/
def accesses (e : Engine) (i : Instr) : List Int :=
  paramAddresses e (paramCount i) ++ operandAddresses e 1 (inputModes i)
    ++ outputAddresses e (paramCount i) (outputModes i)

/-- Every address the instruction accesses exists. -/
def Addressable (e : Engine) (i : Instr) : Prop := ∀ a ∈ accesses e i, inMemory e a = true

/-- The first address the instruction accesses that does not exist. -/
def firstIllegal (e : Engine) (i : Instr) : Option Int := (accesses e i).find? fun a => !inMemory e a

/-- The machine after a cycle that leaves its engine as `e` and ends with the event `ev`. -/
def after (s : State) (e : Engine) (ev : Event) : State := (s.setCurrent e).answer ev

/-- The mode that names the same address at `rb = 0`: position for relative (spec/40_execution_cycle.md R109). -/
def absoluteMode : Mode → Mode
  | .position => .position
  | .immediate => .immediate
  | .relative => .position

/-- An instruction with every relative parameter made a position parameter. -/
def absoluteInstr : Instr → Instr
  | .add a b d => .add (absoluteMode a) (absoluteMode b) (absoluteMode d)
  | .mul a b d => .mul (absoluteMode a) (absoluteMode b) (absoluteMode d)
  | .inp d => .inp (absoluteMode d)
  | .out a => .out (absoluteMode a)
  | .jt a b => .jt (absoluteMode a) (absoluteMode b)
  | .jf a b => .jf (absoluteMode a) (absoluteMode b)
  | .lt a b d => .lt (absoluteMode a) (absoluteMode b) (absoluteMode d)
  | .eq a b d => .eq (absoluteMode a) (absoluteMode b) (absoluteMode d)
  | .arb a => .arb (absoluteMode a)
  | .halt => .halt

/-! ### Launch premises (spec/70_reset_and_hazards.md R307) and ends of a run -/

/-- `NoFaultRecorded`. -/
def NoFaultRecorded (e : Engine) : Prop := e.faultCause = none ∧ e.life ≠ .faulted

/-- `FreshEngine`. -/
def FreshEngine (e : Engine) : Prop :=
  e.life = .ready ∧ e.ip = 0 ∧ e.rb = 0 ∧ e.outLog = [] ∧ e.lastOutput = none ∧ e.inputFailed = false

/-- `ProgramAt0`. -/
def ProgramAt0 (program : List Int) (e : Engine) : Prop :=
  ∀ a, a < program.length → e.mem.read a = program.getD a 0

/-- `ZeroBeyondProgram`. -/
def ZeroBeyondProgram (program : List Int) (e : Engine) : Prop := ∀ a, program.length ≤ a → e.mem.read a = 0

/-- `FreshNetwork` (spec/60_exceptions.md R241): every engine fresh with its address queued, everything empty. -/
def FreshNetwork (s : State) : Prop :=
  (∀ (i : Nat) (e : Engine), s.eng[i]? = some e → FreshEngine e ∧ NoFaultRecorded e ∧ e.inq = [(i : Int)])
    ∧ (∀ a ∈ s.acc, a = []) ∧ s.natHeld = none ∧ s.natLastY = none ∧ s.netState = .running
    ∧ s.netAnswer = none ∧ s.netFault = none ∧ s.cursor = 0

/-- The end of a run of a single engine (spec/40_execution_cycle.md R123). -/
def EngineFinished (e : Engine) : Prop := e.life = .halted

/-- The end of a run of the network (spec/40_execution_cycle.md R123). -/
def NetworkFinished (s : State) : Prop := s.netState = .terminated

/-- A run is safe while no engine is `Faulted` and the network is not `NetFaulted`. -/
def SafeState (s : State) : Prop := (∀ e ∈ s.eng, NoFaultRecorded e) ∧ s.netState ≠ .faulted

/-! ### Invariants -/

/-- The memory is in its canonical form and lists no address that does not exist. -/
def MemoryOk (e : Engine) : Prop := e.mem.wf = true ∧ ∀ p ∈ e.mem, p.1 < e.straps.capacity

/-- The fault record is written exactly when the engine is `Faulted`, and its sub-reason exactly for
`IllegalInstruction` (spec/10_state.md R29). -/
def FaultRecordOk (e : Engine) : Prop :=
  (e.life = .faulted ↔ e.faultCause ≠ none)
    ∧ (e.faultReason ≠ none ↔ e.faultCause = some .illegalInstruction)
    ∧ (e.faultCause = none → e.faultInfo = none)

/-- `last_output` is the last value of `out_log` (spec/10_state.md R27, R32). -/
def LastOutputOk (e : Engine) : Prop := e.lastOutput = e.outLog.getLast?

/-- `WaitingForInput` is a state of `SUSPEND` engines only (spec/40_execution_cycle.md R112), and there it means that
the last input attempt failed (spec/10_state.md R28). -/
def WaitingOk (e : Engine) : Prop := e.life = .waitingForInput → e.straps.starve = .suspend ∧ e.inputFailed = true

/-- Everything an engine holds as a value is in range (spec/41_arithmetic.md R133). -/
def EngineValuesOk (c : Config) (e : Engine) : Prop :=
  (∀ p ∈ e.mem, inRange c p.2 = true) ∧ inRange c e.ip = true ∧ inRange c e.rb = true
    ∧ (∀ v ∈ e.inq, inRange c v = true) ∧ (∀ v ∈ e.outLog, inRange c v = true)
    ∧ (∀ v ∈ e.handed, inRange c v = true) ∧ (∀ v, e.lastOutput = some v → inRange c v = true)

/-- Everything the network holds as a value is in range. -/
def NetworkValuesOk (s : State) : Prop :=
  (∀ a ∈ s.acc, ∀ v ∈ a, inRange s.cfg v = true)
    ∧ (∀ x y, s.natHeld = some (x, y) → inRange s.cfg x = true ∧ inRange s.cfg y = true)
    ∧ (∀ y, s.natLastY = some y → inRange s.cfg y = true)
    ∧ (∀ y, s.netAnswer = some y → inRange s.cfg y = true)

/-- The parameters are legal (spec/00_scope.md R5, R7). -/
def ParametersOk (s : State) : Prop :=
  legalWidth s.cfg = true ∧ ∀ e ∈ s.eng, legalCapacity s.cfg e.straps.capacity = true

/-- An engine of the network has the network's straps (spec/00_scope.md R9). -/
def NetworkStraps (e : Engine) : Prop := e.straps = Straps.network e.straps.capacity

/-- The machine has the engines, the accumulators and the cursor its configuration says (spec/10_state.md R35, R36,
R41), and a single engine with a `CALLBACK` source has no queue (spec/00_scope.md R9). -/
def ShapeOk (s : State) : Prop :=
  match s.cfg.topology with
  | .single => s.eng.length = 1 ∧ s.cursor = 0 ∧ ∀ e ∈ s.eng, e.straps.source = .callback → e.inq = []
  | .network =>
    legalNetwork s.cfg = true ∧ s.eng.length = s.cfg.nEngines ∧ s.acc.length = s.cfg.nEngines
      ∧ s.cursor < s.cfg.nEngines ∧ (∀ a ∈ s.acc, a.length ≤ 2) ∧ ∀ e ∈ s.eng, NetworkStraps e

/-- `net_answer` and `net_fault` are written exactly in the two ends of the network (spec/10_state.md R39, R40). -/
def NetworkStatusOk (s : State) : Prop :=
  (s.netState = .terminated ↔ s.netAnswer ≠ none) ∧ (s.netState = .faulted ↔ s.netFault ≠ none)

/-- Every value of the machine is in range, its parameters and its shape are legal, its memories are in form. -/
def ValuesInv (s : State) : Prop :=
  ParametersOk s ∧ ShapeOk s ∧ NetworkValuesOk s ∧ ∀ e ∈ s.eng, EngineValuesOk s.cfg e

/-- The status registers of every engine agree with each other. -/
def StatusInv (s : State) : Prop := ∀ e ∈ s.eng, FaultRecordOk e ∧ LastOutputOk e ∧ WaitingOk e

/-- Every memory is in form. -/
def MemoryInv (s : State) : Prop := ∀ e ∈ s.eng, MemoryOk e

/-- The invariants together. -/
def Inv (s : State) : Prop := ValuesInv s ∧ MemoryInv s ∧ StatusInv s ∧ NetworkStatusOk s

end Sys2Proof.Machine
end

