-- ==== Sys2Proof/Certificates/Slice0/Obligations.lean ====
section
/-!
DEFINITION. The statements for the provers, from the numbered rules of spec/. Where one rests on a decision of the
spec's own (D<n> of spec/92_eei_decisions.md) or on a choice of the model (log <n>), its docstring says so.
-/

open Sys2Proof Sys2Proof.Machine

/-! ### Encoding -/

/-- spec/30_encoding.md sections 2 and 3 (R82, R86, R89): decode of the word of a well-formed instruction is that instruction,
whatever its modes. The digits of immediate and relative mode are the spec's (D12, log 17). -/
def Obligations.DecodeOfEncode : Prop :=
  ∀ i : Instr, i.wellFormed = true → decode (encode i) = .ok i

/-- spec/30_encoding.md section 3 (R89): a word that decodes is the word of the instruction it decodes to, and that
instruction is well-formed; so no other integer decodes to it. Rests on D14 to D17, which make every other word
illegal, and on the digits of D12 (log 17). -/
def Obligations.EncodeOfDecode : Prop :=
  ∀ (w : Word) (i : Instr), decode w = .ok i → i.wellFormed = true ∧ encode i = w

/-- Words written out from the digit patterns of R86 decode to the instructions they stand for. That digit 1 is immediate
and digit 2 relative is presumed (log 17, D12). -/
def Obligations.SampleWordsDecode : Prop :=
  decode 21201 = .ok (.add .relative .immediate .relative)
    ∧ decode 1002 = .ok (.mul .position .immediate .position)
    ∧ decode 203 = .ok (.inp .relative)
    ∧ decode 104 = .ok (.out .immediate)
    ∧ decode 2105 = .ok (.jt .immediate .relative)
    ∧ decode 1006 = .ok (.jf .position .immediate)
    ∧ decode 2207 = .ok (.lt .relative .relative .position)
    ∧ decode 21008 = .ok (.eq .position .immediate .relative)
    ∧ decode 9 = .ok (.arb .position)
    ∧ decode 99 = .ok .halt

/-- spec/30_encoding.md section 4 (R90 to R94): why a word is illegal, in the order of the checks, for a word `w` whose
opcode has `n` parameters, the last of them an output parameter if `out` is set. Rests on D14 to D17 and D25, and on
digit 1 being immediate (D12, log 17). -/
def Obligations.IllegalWordsByReason : Prop :=
  (∀ w : Int, w < 0 → decode w = .error .negativeWord)
    ∧ (∀ w : Nat, w % 100 ∉ [1, 2, 3, 4, 5, 6, 7, 8, 9, 99] → decode (w : Int) = .error .unknownOpcode)
    ∧ ∀ (w n : Nat) (out : Bool),
      (w % 100, n, out) ∈ [(1, 3, true), (2, 3, true), (3, 1, true), (4, 1, false), (5, 2, false), (6, 2, false),
        (7, 3, true), (8, 3, true), (9, 1, false), (99, 0, false)] →
      ((∃ k, 1 ≤ k ∧ k ≤ n ∧ 3 ≤ digit w (k + 1)) → decode (w : Int) = .error .badModeDigit)
        ∧ ((∀ k, 1 ≤ k → k ≤ n → digit w (k + 1) < 3) → out = true → digit w (n + 1) = 1 →
          decode (w : Int) = .error .immediateOutput)
        ∧ ((∀ k, 1 ≤ k → k ≤ n → digit w (k + 1) < 3) → ¬(out = true ∧ digit w (n + 1) = 1) →
          w / 10 ^ (n + 2) ≠ 0 → decode (w : Int) = .error .excessDigits)
        ∧ ((∀ k, 1 ≤ k → k ≤ n → digit w (k + 1) < 3) → ¬(out = true ∧ digit w (n + 1) = 1) →
          w / 10 ^ (n + 2) = 0 → ∃ i, decode (w : Int) = .ok i ∧ opcodeOf i = w % 100 ∧ paramCount i = n)

/-! ### Memory and operands -/

/-- R54: a read at any integer address gives the cell, or raises `IllegalAddress` of that address; reading gives no new
engine, so it has no side effect. -/
def Obligations.MemReadRange : Prop :=
  ∀ (e : Engine) (a : Int),
    ((a < 0 ∨ (e.straps.capacity : Int) ≤ a) → memRead e a = .error ⟨.illegalAddress, none, some a⟩)
      ∧ (0 ≤ a → a < e.straps.capacity → memRead e a = .ok (e.mem.read a.toNat))

/-- spec/20_memory.md section 2 (`MemWrite`): a write outside the memory raises `IllegalAddress` of the address; inside it
changes that cell to the value and no other cell, nor anything else of the engine. That memory has a canonical form, which
the write keeps, is the model's choice (log 13); the premise on the form is the invariant of
`Obligations.MemoryStaysCanonical`. -/
def Obligations.MemWriteCell : Prop :=
  ∀ (e : Engine) (a : Int) (v : Word), e.mem.wf = true →
    ((a < 0 ∨ (e.straps.capacity : Int) ≤ a) → memWrite e a v = .error ⟨.illegalAddress, none, some a⟩)
      ∧ (0 ≤ a → a < e.straps.capacity →
        ∃ m : Memory, memWrite e a v = .ok { e with mem := m } ∧ m.wf = true ∧ m.read a.toNat = v
          ∧ ∀ b : Nat, b ≠ a.toNat → m.read b = e.mem.read b)

/-- R106: the operand of an input parameter with word `p` in each mode; an immediate operand cannot fault. -/
def Obligations.InputOperandByMode : Prop :=
  ∀ (e : Engine) (p : Word),
    operand e .immediate p = .ok p
      ∧ operand e .position p = (if 0 ≤ p ∧ p < e.straps.capacity then .ok (e.mem.read p.toNat)
        else .error ⟨.illegalAddress, none, some p⟩)
      ∧ operand e .relative p = (if 0 ≤ e.rb + p ∧ e.rb + p < e.straps.capacity then .ok (e.mem.read (e.rb + p).toNat)
        else .error ⟨.illegalAddress, none, some (e.rb + p)⟩)

/-- R107: the output address in the two modes decode admits, checked against the memory; no cell is read. -/
def Obligations.OutputAddressByMode : Prop :=
  ∀ (e : Engine) (p : Word),
    outAddress e .position p = (if 0 ≤ p ∧ p < e.straps.capacity then .ok p
        else .error ⟨.illegalAddress, none, some p⟩)
      ∧ outAddress e .relative p = (if 0 ≤ e.rb + p ∧ e.rb + p < e.straps.capacity then .ok (e.rb + p)
        else .error ⟨.illegalAddress, none, some (e.rb + p)⟩)

/-- spec/40_execution_cycle.md sections 1 and 2 (R103, R105, R108): an instruction raises `IllegalAddress` of the FIRST
address that does not exist, in the order parameter words, input operands, output address; a jump resolves its target
whether it is taken or not. The order is the spec's own (D18, D25). -/
def Obligations.IllegalAddressFirstMet : Prop :=
  ∀ (i : Instr) (s : State) (e : Engine) (a : Int), i.wellFormed = true → s.current = some e →
    firstIllegal e i = some a → exec i s = .next (takeTrap s e (illegalAddress a))

/-! ### The instructions -/

/-- spec/41_arithmetic.md section 1, `add`: where every address exists and the exact sum is in range, the sum is written
to the output address and `ip` advances by 4; nothing else changes but the lifecycle, which is `Running`. -/
def Obligations.AddWritesSum : Prop :=
  ∀ (s : State) (e : Engine) (a b d : Mode), s.current = some e → d.writable = true → Addressable e (.add a b d) →
    inRange s.cfg (operandValue e a 1 + operandValue e b 2) = true →
    exec (.add a b d) s = .next (after s { e with
      life := .running
      mem := e.mem.write (paramAddress e d 3).toNat (operandValue e a 1 + operandValue e b 2)
      ip := e.ip + 4 } .complete)

/-- spec/41_arithmetic.md section 1, `mul`: as `add`, with the exact product. -/
def Obligations.MulWritesProduct : Prop :=
  ∀ (s : State) (e : Engine) (a b d : Mode), s.current = some e → d.writable = true → Addressable e (.mul a b d) →
    inRange s.cfg (operandValue e a 1 * operandValue e b 2) = true →
    exec (.mul a b d) s = .next (after s { e with
      life := .running
      mem := e.mem.write (paramAddress e d 3).toNat (operandValue e a 1 * operandValue e b 2)
      ip := e.ip + 4 } .complete)

/-- spec/41_arithmetic.md section 2 (R133): an exact result of `add`, `mul` or `arb` outside the range raises `Overflow`
of that result; nothing is written. At an unbounded width every result is in range. The fault is the spec's own (D2). -/
def Obligations.OverflowTraps : Prop :=
  (∀ (s : State) (e : Engine) (a b d : Mode), s.current = some e → d.writable = true → Addressable e (.add a b d) →
      inRange s.cfg (operandValue e a 1 + operandValue e b 2) = false →
      exec (.add a b d) s = .next (takeTrap s e ⟨.overflow, none, some (operandValue e a 1 + operandValue e b 2)⟩))
    ∧ (∀ (s : State) (e : Engine) (a b d : Mode), s.current = some e → d.writable = true → Addressable e (.mul a b d) →
      inRange s.cfg (operandValue e a 1 * operandValue e b 2) = false →
      exec (.mul a b d) s = .next (takeTrap s e ⟨.overflow, none, some (operandValue e a 1 * operandValue e b 2)⟩))
    ∧ (∀ (s : State) (e : Engine) (a : Mode), s.current = some e → Addressable e (.arb a) →
      inRange s.cfg (e.rb + operandValue e a 1) = false →
      exec (.arb a) s = .next (takeTrap s e ⟨.overflow, none, some (e.rb + operandValue e a 1)⟩))
    ∧ ∀ (c : Config) (r : Int), inRange c r = true ↔
      ∀ n, c.xlen = some n → -(2 ^ (n - 1)) ≤ r ∧ r ≤ 2 ^ (n - 1) - 1

/-- spec/42_compare.md, `lt`: 1 if the first operand is less than the second as signed integers, else 0. -/
def Obligations.LtWritesTruth : Prop :=
  ∀ (s : State) (e : Engine) (a b d : Mode), s.current = some e → d.writable = true → Addressable e (.lt a b d) →
    exec (.lt a b d) s = .next (after s { e with
      life := .running
      mem := e.mem.write (paramAddress e d 3).toNat (if operandValue e a 1 < operandValue e b 2 then 1 else 0)
      ip := e.ip + 4 } .complete)

/-- spec/42_compare.md, `eq`: 1 if the operands are equal, else 0. -/
def Obligations.EqWritesTruth : Prop :=
  ∀ (s : State) (e : Engine) (a b d : Mode), s.current = some e → d.writable = true → Addressable e (.eq a b d) →
    exec (.eq a b d) s = .next (after s { e with
      life := .running
      mem := e.mem.write (paramAddress e d 3).toNat (if operandValue e a 1 = operandValue e b 2 then 1 else 0)
      ip := e.ip + 4 } .complete)

/-- spec/43_jump.md, `jt`: a condition that is not 0 loads the second operand into `ip`, unchecked (R152, D20); 0 falls
through by 3. Memory and all else stay. -/
def Obligations.JtJumpsIfNonzero : Prop :=
  ∀ (s : State) (e : Engine) (a b : Mode), s.current = some e → Addressable e (.jt a b) →
    exec (.jt a b) s = .next (after s { e with
      life := .running
      ip := if operandValue e a 1 ≠ 0 then operandValue e b 2 else e.ip + 3 } .complete)

/-- spec/43_jump.md, `jf`: the condition 0 jumps, any other falls through by 3. -/
def Obligations.JfJumpsIfZero : Prop :=
  ∀ (s : State) (e : Engine) (a b : Mode), s.current = some e → Addressable e (.jf a b) →
    exec (.jf a b) s = .next (after s { e with
      life := .running
      ip := if operandValue e a 1 = 0 then operandValue e b 2 else e.ip + 3 } .complete)

/-- spec/44_io.md, `in` with a value at the front of its queue: the value is consumed and written, `input_failed` is
cleared (D10), `ip` advances by 2. -/
def Obligations.InputDeliversQueued : Prop :=
  ∀ (s : State) (e : Engine) (d : Mode) (v : Word) (q : List Word), s.current = some e → d.writable = true →
    Addressable e (.inp d) → e.straps.source = .queue → e.inq = v :: q →
    exec (.inp d) s = .next (after s { e with
      life := .running
      inq := q
      inputFailed := false
      mem := e.mem.write (paramAddress e d 1).toNat v
      ip := e.ip + 2 } .complete)

/-- spec/44_io.md, `in` with an empty queue, under each `STARVE_POLICY`: suspension with `ip` unchanged, `InputUnderflow`,
or -1 delivered with `input_failed` set (D5, D10, D32). -/
def Obligations.InputStarvesByPolicy : Prop :=
  ∀ (s : State) (e : Engine) (d : Mode), s.current = some e → d.writable = true → Addressable e (.inp d) →
    e.straps.source = .queue → e.inq = [] →
    (e.straps.starve = .suspend →
      exec (.inp d) s = .next (after s { e with life := .waitingForInput, inputFailed := true } .suspend))
      ∧ (e.straps.starve = .fatal → exec (.inp d) s = .next (takeTrap s e ⟨.inputUnderflow, none, none⟩))
      ∧ (e.straps.starve = .signal →
        exec (.inp d) s = .next (after s { e with
          life := .running
          inputFailed := true
          mem := e.mem.write (paramAddress e d 1).toNat (-1)
          ip := e.ip + 2 } .stall))

/-- spec/60_exceptions.md section 3 (R227): `in` of a `CALLBACK` source asks the host once. Its answer is
`Config.hostAnswer` of the engine and of the count of questions so far, if that is a value in range, and else none; a
value is delivered, none starves by the policy. The answer is the free value of log 5 (D28), so the statement holds
whatever it is; the count, and that a faulting cycle does not advance it, are the model's own (log 6). -/
def Obligations.InputAsksCallback : Prop :=
  (∀ (c : Config) (i : Nat) (e : Engine) (v : Word),
      callbackAnswer c i e = some v ↔ Config.hostAnswer i e.draws = some v ∧ inRange c v = true)
    ∧ ∀ (s : State) (e : Engine) (d : Mode), s.current = some e → d.writable = true → Addressable e (.inp d) →
      e.straps.source = .callback →
      match callbackAnswer s.cfg s.cursor e, e.straps.starve with
      | some v, _ =>
        exec (.inp d) s = .next (after s { e with
          life := .running
          draws := e.draws + 1
          inputFailed := false
          mem := e.mem.write (paramAddress e d 1).toNat v
          ip := e.ip + 2 } .complete)
      | none, .suspend =>
        exec (.inp d) s = .next (after s { e with
          life := .waitingForInput, draws := e.draws + 1, inputFailed := true } .suspend)
      | none, .fatal => exec (.inp d) s = .next (takeTrap s e ⟨.inputUnderflow, none, none⟩)
      | none, .signal =>
        exec (.inp d) s = .next (after s { e with
          life := .running
          draws := e.draws + 1
          inputFailed := true
          mem := e.mem.write (paramAddress e d 1).toNat (-1)
          ip := e.ip + 2 } .stall)

/-- spec/44_io.md, `out` whose sink is `RECORD`, or the host's `CALLBACK` in the single-engine configuration: the value is
appended to `out_log`, is `last_output` and the event, and the callback is handed it (`handed`, log 9). -/
def Obligations.OutputToHost : Prop :=
  ∀ (s : State) (e : Engine) (a : Mode), s.current = some e → Addressable e (.out a) →
    (e.straps.sink = .record ∨ s.cfg.topology = .single) →
    exec (.out a) s = .next (after s { e with
      life := .running
      outLog := e.outLog ++ [operandValue e a 1]
      lastOutput := some (operandValue e a 1)
      handed := e.handed ++ (if e.straps.sink = .callback then [operandValue e a 1] else [])
      ip := e.ip + 2 } (.output (operandValue e a 1)))

/-- spec/44_io.md and spec/60_exceptions.md section 4, `out` of an engine of the network: the engine records the value as
ever and the router is given it within the cycle. -/
def Obligations.OutputToRouter : Prop :=
  ∀ (s : State) (e : Engine) (a : Mode), s.current = some e → Addressable e (.out a) →
    e.straps.sink = .callback → s.cfg.topology = .network →
    exec (.out a) s = .next ((route (s.setCurrent { e with
      life := .running
      outLog := e.outLog ++ [operandValue e a 1]
      lastOutput := some (operandValue e a 1)
      ip := e.ip + 2 }) s.cursor (operandValue e a 1)).answer (.output (operandValue e a 1)))

/-- spec/45_base_halt.md, `arb`: the exact sum of `rb` and the operand, read with the old `rb`, is the new `rb`. -/
def Obligations.ArbAddsToBase : Prop :=
  ∀ (s : State) (e : Engine) (a : Mode), s.current = some e → Addressable e (.arb a) →
    inRange s.cfg (e.rb + operandValue e a 1) = true →
    exec (.arb a) s = .next (after s { e with
      life := .running, rb := e.rb + operandValue e a 1, ip := e.ip + 2 } .complete)

/-- spec/45_base_halt.md, `halt`: the engine is `Halted` and nothing else of it changes but `ip`. That `ip` advances by 1
is the spec's own reading (D21, spec/93_implementation_defined.md U6, log 16). -/
def Obligations.HaltHalts : Prop :=
  ∀ (s : State) (e : Engine), s.current = some e →
    exec .halt s = .next (after s { e with life := .halted, ip := e.ip + 1 } .halt)

/-! ### Frames -/

/-- What `add`, `mul`, `lt` and `eq` leave alone, whether they complete or trap: every cell but the one at the output
address, `rb`, the queue, the logs, the flags, the straps; and everything of the machine that is not the running
engine (spec/10_state.md R23, R24; spec/41_arithmetic.md; spec/42_compare.md). -/
def Obligations.ComputeFrame : Prop :=
  ∀ (i : Instr) (a b d : Mode) (s t : State) (e : Engine),
    i ∈ [Instr.add a b d, Instr.mul a b d, Instr.lt a b d, Instr.eq a b d] → s.current = some e → exec i s = .next t →
    ∃ e', t.current = some e' ∧ t = { s with eng := s.eng.set s.cursor e', reply := t.reply }
      ∧ (∀ x : Nat, x ≠ (effectiveAddress e d (paramWord e 3)).toNat → e'.mem.read x = e.mem.read x)
      ∧ e'.rb = e.rb ∧ e'.inq = e.inq ∧ e'.outLog = e.outLog ∧ e'.lastOutput = e.lastOutput
      ∧ e'.inputFailed = e.inputFailed ∧ e'.handed = e.handed ∧ e'.draws = e.draws ∧ e'.straps = e.straps

/-- What `jt`, `jf`, `arb` and `halt` leave alone: every cell of memory, the queue, the logs, the flags; `rb` but for
`arb`; everything of the machine that is not the running engine. -/
def Obligations.RegisterFrame : Prop :=
  ∀ (i : Instr) (a b : Mode) (s t : State) (e : Engine),
    i ∈ [Instr.jt a b, Instr.jf a b, Instr.arb a, Instr.halt] → s.current = some e → exec i s = .next t →
    ∃ e', t.current = some e' ∧ t = { s with eng := s.eng.set s.cursor e', reply := t.reply }
      ∧ (∀ x : Nat, e'.mem.read x = e.mem.read x) ∧ (i ≠ .arb a → e'.rb = e.rb)
      ∧ e'.inq = e.inq ∧ e'.outLog = e.outLog ∧ e'.lastOutput = e.lastOutput
      ∧ e'.inputFailed = e.inputFailed ∧ e'.handed = e.handed ∧ e'.draws = e.draws ∧ e'.straps = e.straps

/-- What `in` leaves alone: every cell but the one at its output address, `rb`, the output logs; everything of the
machine that is not the running engine. A suspended or faulting `in` leaves every cell, `ip` and a queue alone. -/
def Obligations.InputFrame : Prop :=
  ∀ (d : Mode) (s t : State) (e : Engine), s.current = some e → exec (.inp d) s = .next t →
    ∃ e', t.current = some e' ∧ t = { s with eng := s.eng.set s.cursor e', reply := t.reply }
      ∧ (∀ x : Nat, x ≠ (effectiveAddress e d (paramWord e 1)).toNat → e'.mem.read x = e.mem.read x)
      ∧ e'.rb = e.rb ∧ e'.outLog = e.outLog ∧ e'.lastOutput = e.lastOutput ∧ e'.handed = e.handed
      ∧ e'.straps = e.straps
      ∧ (t.reply = some .suspend ∨ t.reply = some .fault → e'.mem = e.mem ∧ e'.ip = e.ip ∧ e'.inq = e.inq)

/-- What `out` leaves alone: every cell of every engine, and every register of every engine but what `out` writes of the
running one; another engine can only get values at the back of its queue (spec/10_state.md R35, spec/20_memory.md
R51). -/
def Obligations.OutputFrame : Prop :=
  ∀ (a : Mode) (s t : State) (e : Engine), s.current = some e → exec (.out a) s = .next t →
    (∃ e' q, t.current = some e' ∧ e'.mem = e.mem ∧ e'.rb = e.rb ∧ e'.inputFailed = e.inputFailed
        ∧ e'.draws = e.draws ∧ e'.straps = e.straps ∧ e'.inq = e.inq ++ q)
      ∧ (∀ j f, j ≠ s.cursor → s.eng[j]? = some f → ∃ q, t.eng[j]? = some { f with inq := f.inq ++ q })
      ∧ t.eng.length = s.eng.length ∧ t.cfg = s.cfg ∧ t.cursor = s.cursor ∧ t.natLastY = s.natLastY
      ∧ t.netAnswer = s.netAnswer

/-! ### The cycle and the lifecycle -/

/-- spec/40_execution_cycle.md (R100, R116) and log 7: when the word at `ip` decodes to `i`, a step of a machine whose
engine is not terminal is `exec i`; in the network the scheduler's work follows where that ends the visit, and a
network that has ended does nothing. -/
def Obligations.StepRunsDecoded : Prop :=
  ∀ (s : State) (e : Engine) (i : Instr), s.current = some e → e.life ≠ .halted → e.life ≠ .faulted →
    0 ≤ e.ip → e.ip < e.straps.capacity → decode (e.mem.read e.ip.toNat) = .ok i →
    (s.cfg.topology = .single → step s = exec i s)
      ∧ (s.cfg.topology = .network → s.netState = .running → ∀ t, exec i s = .next t → step s = .next (afterCycle t))
      ∧ (s.cfg.topology = .network → s.netState ≠ .running → step s = .next s)

/-- spec/40_execution_cycle.md section 1 (R101, R102): fetch reads the cell at `ip` and decode is given its word; at an `ip`
that is no address the cycle raises `IllegalAddress(ip)`, and `ip` is left holding the bad address; a word that decode
refuses raises `IllegalInstruction` (spec/60_exceptions.md R201, R208). The state `Faulted` and the form of its record are
the spec's own (D8, D11, D19), and so are four of the five sub-reasons (D14 to D17). -/
def Obligations.FetchAtIp : Prop :=
  ∀ (s : State) (e : Engine), s.current = some e → e.life ≠ .halted → e.life ≠ .faulted →
    ((e.ip < 0 ∨ (e.straps.capacity : Int) ≤ e.ip) →
      cycle s = .next (after s { e with
        life := .faulted, faultCause := some .illegalAddress, faultReason := none, faultInfo := some e.ip } .fault))
      ∧ (0 ≤ e.ip → e.ip < e.straps.capacity →
        (∀ i, decode (e.mem.read e.ip.toNat) = .ok i → cycle s = exec i s)
          ∧ ∀ r, decode (e.mem.read e.ip.toNat) = .error r →
            cycle s = .next (takeTrap s e (illegalInstruction r (e.mem.read e.ip.toNat))))

/-- spec/60_exceptions.md section 1 (R201): a word that decode refuses raises `IllegalInstruction` with the sub-reason
and the word, and nothing of the engine changes but the lifecycle and the record. Four of the five sub-reasons are the
spec's own (D14 to D17). -/
def Obligations.IllegalWordFaults : Prop :=
  ∀ (s : State) (e : Engine) (r : IllegalReason), s.cfg.topology = .single → s.current = some e → e.life ≠ .halted →
    e.life ≠ .faulted → 0 ≤ e.ip → e.ip < e.straps.capacity → decode (e.mem.read e.ip.toNat) = .error r →
    step s = .next (after s { e with
      life := .faulted
      faultCause := some .illegalInstruction
      faultReason := some r
      faultInfo := some (e.mem.read e.ip.toNat) } .fault)

/-- spec/40_execution_cycle.md section 1 (R104) and spec/60_exceptions.md section 1 (R208): a cycle whose event is `Fault`
has changed nothing of the machine but the lifecycle and the fault record of its engine; the record holds one of the
four causes an engine can raise, and a sub-reason exactly for `IllegalInstruction`. Precise faults are the spec's own
(D11, D19). -/
def Obligations.FaultsArePrecise : Prop :=
  ∀ (s t : State) (e : Engine), s.current = some e → e.life ≠ .halted → e.life ≠ .faulted → cycle s = .next t →
    t.reply = some .fault →
    ∃ (c : FaultCause) (r : Option IllegalReason) (x : Option Int),
      t = after s { e with life := .faulted, faultCause := some c, faultReason := r, faultInfo := x } .fault
        ∧ c ≠ .illegalDestination ∧ (c = .illegalInstruction ↔ r ≠ none)

/-- spec/40_execution_cycle.md section 4 (R121): a cycle of an engine that is not terminal ends in exactly one of the six
events, with the lifecycle the table gives for it. -/
def Obligations.EventAndLifecycle : Prop :=
  ∀ (s : State) (e : Engine), s.current = some e → e.life ≠ .halted → e.life ≠ .faulted →
    ∃ t e', cycle s = .next t ∧ t.current = some e' ∧
      ((t.reply = some .complete ∧ e'.life = .running)
        ∨ (∃ v, t.reply = some (.output v) ∧ e'.life = .running ∧ e'.lastOutput = some v)
        ∨ (t.reply = some .halt ∧ e'.life = .halted)
        ∨ (t.reply = some .suspend ∧ e'.life = .waitingForInput ∧ e.straps.starve = .suspend)
        ∨ (t.reply = some .stall ∧ e'.life = .running ∧ e.straps.starve = .signal)
        ∨ (t.reply = some .fault ∧ e'.life = .faulted))

/-- R116, R119: `STEP` to an engine that is `Halted` or `Faulted` returns `Idle` and changes nothing. The event is the
model's field `reply` (log 8); that a terminal engine ignores commands is the spec's own (D22). -/
def Obligations.TerminalEngineIgnoresCommands : Prop :=
  ∀ (s : State) (e : Engine) (c : Command) (fuel : Nat), s.current = some e → (e.life = .halted ∨ e.life = .faulted) →
    cycle s = .next { s with reply := some .idle }
      ∧ drive c (fuel + 1) s = some { s with reply := some .idle }

/-- spec/40_execution_cycle.md section 4 (R115 to R118): a command returns after `n + 1` steps exactly when the event of
the last of them ends it and no earlier event does, whatever the fuel above that; any event ends `STEP`, `Halt`,
`Suspend`, `Fault` and the `Idle` of a terminal engine end `RUN`, every event but `Complete` ends `RUN_TO_OUTPUT`. -/
def Obligations.CommandsRunUntilTheirEvent : Prop :=
  (∀ (c : Command) (fuel : Nat) (s t : State), s.cfg.topology = .single →
    (drive c fuel s = some t ↔
      ∃ n, n < fuel ∧ core.run (n + 1) s = .next t ∧ (∃ ev, t.reply = some ev ∧ endsCommand c ev = true)
        ∧ ∀ m, m < n → ∃ u ev, core.run (m + 1) s = .next u ∧ u.reply = some ev ∧ endsCommand c ev = false))
    ∧ (∀ ev, endsCommand .step ev = true)
    ∧ (∀ ev, endsCommand .run ev = true ↔ ev = .halt ∨ ev = .suspend ∨ ev = .fault ∨ ev = .idle)
    ∧ ∀ ev, endsCommand .runToOutput ev = true ↔ ev ≠ .complete

/-- spec/10_state.md R22, spec/45_base_halt.md R172: `rb` of any engine changes only by `arb` of that engine. -/
def Obligations.OnlyArbChangesBase : Prop :=
  ∀ (i : Instr) (s t : State) (j : Nat) (f f' : Engine), exec i s = .next t → s.eng[j]? = some f →
    t.eng[j]? = some f' → f'.rb ≠ f.rb → j = s.cursor ∧ ∃ a, i = .arb a

/-- spec/10_state.md R32, spec/44_io.md R161: a step changes `out_log` of an engine only by appending one value, and only
when its event is `Output` of that value. -/
def Obligations.OutputStreamOnlyGrows : Prop :=
  ∀ (s t : State) (j : Nat) (f : Engine), step s = .next t → s.eng[j]? = some f →
    ∃ f', t.eng[j]? = some f' ∧
      (f'.outLog = f.outLog ∨ ∃ v, f'.outLog = f.outLog ++ [v] ∧ j = s.cursor ∧ t.reply = some (.output v))

/-- spec/10_state.md R44: no step changes the configuration, the number of engines or an engine's straps. -/
def Obligations.ConfigurationIsConstant : Prop :=
  ∀ s t : State, step s = .next t →
    t.cfg = s.cfg ∧ t.eng.map (fun e => e.straps) = s.eng.map (fun e => e.straps)

/-- spec/20_memory.md R51, spec/10_state.md R35: a step leaves the memory, the registers, the flags, the logs and the
lifecycle of every engine but the running one alone; all it can do to another engine is append to its queue. -/
def Obligations.EnginesAreIsolated : Prop :=
  ∀ (s t : State) (j : Nat) (f : Engine), step s = .next t → j ≠ s.cursor → s.eng[j]? = some f →
    ∃ q, t.eng[j]? = some { f with inq := f.inq ++ q }

/-- spec/40_execution_cycle.md section 1: a machine that has a running engine always steps to a next state: no fault and
no refusal of the model is ever its answer. -/
def Obligations.StepAlwaysAnswersNext : Prop :=
  ∀ s : State, s.current ≠ none → ∃ t, step s = .next t

/-- spec/40_execution_cycle.md section 2 (R109): at `rb = 0` an instruction does what the same instruction with every
relative parameter made a position parameter does. -/
def Obligations.RelativeIsPositionAtBaseZero : Prop :=
  ∀ (i : Instr) (s : State) (e : Engine), i.wellFormed = true → s.current = some e → e.rb = 0 →
    exec i s = exec (absoluteInstr i) s

/-- spec/20_memory.md section 1 (R53) and D1: a cycle that does not fault does the same on the same machine with a
larger memory and a wider word: nothing but the range checks reads `CAPACITY` and `XLEN`. The source is `QUEUE`, since
a `CALLBACK` may answer more on a wider machine. -/
def Obligations.LargerMachineAgrees : Prop :=
  ∀ (s t : State) (e e' : Engine) (capacity : Nat) (x : Option Nat), s.cfg.topology = .single → s.current = some e →
    e.straps.source = .queue → e.straps.capacity ≤ capacity →
    (∀ v, inRange s.cfg v = true → inRange { s.cfg with xlen := x } v = true) →
    step s = .next t → t.reply ≠ some .fault → t.current = some e' →
    step { s.setCurrent { e with straps := { e.straps with capacity := capacity } } with cfg := { s.cfg with xlen := x } }
      = .next { t.setCurrent { e' with straps := { e'.straps with capacity := capacity } } with
          cfg := { s.cfg with xlen := x } }

/-! ### Invariants -/

/-- The canonical form of every memory, and that no address outside it is listed, are kept by every step (log 13,
spec/20_memory.md R50). -/
def Obligations.MemoryStaysCanonical : Prop := ∀ s t : State, MemoryInv s → step s = .next t → MemoryInv t

/-- spec/41_arithmetic.md section 2 (R133) and spec/10_state.md section 1 (R21): every cell, register, queue, log and
network register stays in the value range, and the configuration and the shape of the machine stay legal. -/
def Obligations.ValuesStayInRange : Prop := ∀ s t : State, ValuesInv s → step s = .next t → ValuesInv t

/-- spec/10_state.md R25 to R29: the status registers of every engine keep agreeing with each other: a fault record
exactly in `Faulted`, `last_output` the last of `out_log`, `WaitingForInput` only under `SUSPEND`. -/
def Obligations.StatusRegistersAgree : Prop := ∀ s t : State, StatusInv s → step s = .next t → StatusInv t

/-- spec/10_state.md R39, R40: the answer and the fault of the network stay written exactly in its two ends. -/
def Obligations.NetworkStatusAgrees : Prop :=
  ∀ s t : State, NetworkStatusOk s → step s = .next t → NetworkStatusOk t

/-- spec/10_state.md R29, spec/60_exceptions.md R209: once an engine is `Faulted` or `Halted`, no step changes anything of
it but the back of its queue: the fault record is never cleared and never overwritten. -/
def Obligations.TerminalStatesAreFinal : Prop :=
  ∀ (s t : State) (j : Nat) (f : Engine), step s = .next t → s.eng[j]? = some f →
    (f.life = .faulted ∨ f.life = .halted) → ∃ q, t.eng[j]? = some { f with inq := f.inq ++ q }

/-! ### Reset and construction -/

/-- spec/10_state.md section 7 (R45): the values reset leaves. The configuration of `State.reset` is the model's choice
(log 2), that a single engine has the network's registers and no accumulators is too (log 21), and the values of D9 to
D11, D30 and D31 are the spec's own. -/
def Obligations.ResetState : Prop :=
  State.reset.cfg = Config.default ∧ (∃ e, State.reset.eng = [e] ∧ State.reset.current = some e ∧ FreshEngine e
      ∧ NoFaultRecorded e ∧ e.faultReason = none ∧ e.faultInfo = none ∧ e.inq = [] ∧ (∀ a, e.mem.read a = 0)
      ∧ e.straps = Straps.default)
    ∧ State.reset.acc = [] ∧ State.reset.natHeld = none ∧ State.reset.natLastY = none
    ∧ State.reset.netState = .running
    ∧ State.reset.netAnswer = none ∧ State.reset.netFault = none ∧ State.reset.cursor = 0

/-- The invariants hold at reset. -/
def Obligations.ResetMeetsInvariants : Prop := Inv State.reset

/-- spec/70_reset_and_hazards.md R300, R301 and spec/20_memory.md R52: `LOAD` is refused exactly when a condition fails,
and else gives one fresh engine with the program from address 0, zero beyond it, and the given queue and straps; the
invariants hold of it. The conditions are the spec's own (D38). -/
def Obligations.LoadConstructs : Prop :=
  ∀ (c : Config) (straps : Straps) (program inq0 : List Int), c.topology = .single →
    (load c straps program inq0 = none ↔
      ¬((∀ n, c.xlen = some n → 64 ≤ n) ∧ program.length ≤ straps.capacity ∧ (∀ v ∈ program, inRange c v = true)
        ∧ (∀ v ∈ inq0, inRange c v = true) ∧ 1 ≤ straps.capacity ∧ inRange c (straps.capacity + 3) = true
        ∧ (straps.source = .callback → inq0 = [])))
      ∧ ∀ s, load c straps program inq0 = some s →
        Inv s ∧ ∃ e, s.eng = [e] ∧ s.cfg = c ∧ FreshEngine e ∧ NoFaultRecorded e ∧ ProgramAt0 program e
          ∧ ZeroBeyondProgram program e ∧ e.inq = inq0 ∧ e.straps = straps

/-- spec/60_exceptions.md section 4 (R241) and spec/70_reset_and_hazards.md R301: the construction of the network is
refused exactly when a condition fails (log 23), and else gives one engine for each capacity and program, fresh, with its
own address as its first input and the network's straps, and everything else empty; the invariants hold of it. The
conditions are the spec's own (D4, D38); that each engine has its own capacity is the model's choice (log 26). -/
def Obligations.NetworkLoadConstructs : Prop :=
  ∀ (c : Config) (loads : List (Nat × List Int)),
    (loadNetwork c loads = none ↔
      ¬(c.topology = .network ∧ 1 ≤ c.nEngines ∧ c.nEngines ≤ 255 ∧ loads.length = c.nEngines
        ∧ (∀ n, c.xlen = some n → 64 ≤ n)
        ∧ ∀ l ∈ loads, l.2.length ≤ l.1 ∧ (∀ v ∈ l.2, inRange c v = true) ∧ 1 ≤ l.1 ∧ inRange c (l.1 + 3) = true))
      ∧ ∀ s, loadNetwork c loads = some s →
        Inv s ∧ s.cfg = c ∧ FreshNetwork s ∧ s.eng.length = c.nEngines ∧ s.acc.length = c.nEngines
          ∧ ∀ (i capacity : Nat) (p : List Int), loads[i]? = some (capacity, p) → ∃ e, s.eng[i]? = some e
            ∧ ProgramAt0 p e ∧ ZeroBeyondProgram p e ∧ e.straps = Straps.network capacity

/-! ### The I/O channel and the network -/

/-- R226: the `QUEUE` source gives its values first in, first out, and gives none when it is empty. -/
def Obligations.QueueSourceIsFifo : Prop :=
  ∀ (c : Config) (i : Nat) (e : Engine), e.straps.source = .queue →
    (e.inq = [] → nextInput c i e = (none, e))
      ∧ ∀ v q, e.inq = v :: q → nextInput c i e = (some v, { e with inq := q })

/-- R120 and R226: `PUSH` appends one value at the back of the queue of a single engine whose source is `QUEUE`, changes
nothing else, and takes values in range only. What is not allowed is refused (log 23). -/
def Obligations.PushAppends : Prop :=
  ∀ (s : State) (e : Engine) (v : Int), s.current = some e → s.cfg.topology = .single →
    (e.straps.source = .queue → inRange s.cfg v = true →
      hostPush s v = some (s.setCurrent { e with inq := e.inq ++ [v] }))
      ∧ (e.straps.source = .callback ∨ inRange s.cfg v = false → hostPush s v = none)

/-- R245: the sink of a network engine is the router, which collects the outputs of each engine apart, delivers the third
with the two before it, and empties that engine's accumulator; no other accumulator changes. -/
def Obligations.RouterCollectsTriples : Prop :=
  (∀ (s : State) (i : Nat) (a : List Word) (v : Word), s.acc[i]? = some a → a.length ≤ 2 →
    (a.length < 2 → route s i v = { s with acc := s.acc.set i (a ++ [v]) })
      ∧ (∀ d x, a = [d, x] → route s i v = deliver { s with acc := s.acc.set i [] } i d x v)
      ∧ ∀ j, j ≠ i → (route s i v).acc[j]? = s.acc[j]?)
    ∧ ∀ (s : State) (e : Engine) (v : Word), s.cfg.topology = .network → e.straps.sink = .callback →
      acceptOutput s e v = route (s.setCurrent e) s.cursor v

/-- spec/60_exceptions.md section 4 (R246, R247): a triple for `RESERVED_ADDR` replaces what the monitor holds; one for an
engine is appended to its queue, `x` before `y`; any other stops the network with `IllegalDestination` and is dropped
(D35). `netLog` is the model's record of what was delivered (log 9). -/
def Obligations.RouterDelivers : Prop :=
  ∀ (s : State) (i : Nat) (d x y : Word),
    (d = 255 → deliver s i d x y =
        { s with natHeld := some (x, y), netLog := s.netLog ++ [.delivered i d x y] })
      ∧ (∀ j : Nat, d = j → j < s.cfg.nEngines → s.cfg.nEngines ≤ 255 → ∀ f, s.eng[j]? = some f →
        deliver s i d x y = { s with
          eng := s.eng.set j { f with inq := f.inq ++ [x, y] }
          netLog := s.netLog ++ [.delivered i d x y] })
      ∧ (d ≠ 255 → (d < 0 ∨ (s.cfg.nEngines : Int) ≤ d) → deliver s i d x y =
        { s with netState := .faulted, netFault := some ⟨i, some .illegalDestination, some d⟩ })

/-- R250: the network is idle iff the last input attempt of every engine failed and every queue is empty. -/
def Obligations.IdlePredicate : Prop :=
  ∀ s : State, idle s = true ↔ (∀ e ∈ s.eng, e.inputFailed = true) ∧ ∀ e ∈ s.eng, e.inq = []

/-- spec/60_exceptions.md section 4 (R251 to R253, R256): the end of a pass: nothing unless the network is idle and a
packet is held; then the end with the answer `y` if `y` was the last re-injected, else the re-injection of the packet
to engine 0, which stays held. The order and the retention are the spec's own (D30, D33, D34). -/
def Obligations.MonitorAtEndOfPass : Prop :=
  ∀ s : State,
    (idle s = false → endOfPass s = s)
      ∧ (s.natHeld = none → endOfPass s = s)
      ∧ ∀ x y, idle s = true → s.natHeld = some (x, y) →
        (s.natLastY = some y → endOfPass s = { s with netState := .terminated, netAnswer := some y })
          ∧ (s.natLastY ≠ some y → ∀ f, s.eng[0]? = some f → endOfPass s = { s with
            eng := s.eng.set 0 { f with inq := f.inq ++ [x, y] }
            natLastY := some y
            netLog := s.netLog ++ [.reinjected x y] })

/-- spec/60_exceptions.md section 4 (R243, R244, R254, R255): what ends a visit. A fault stops the network with the
engine's record (D36), a network that the router stopped stays where it is, and else the cursor moves on, to 0 with
the end of the pass after the last engine. -/
def Obligations.SchedulerMovesOn : Prop :=
  ∀ (s : State) (e : Engine) (ev : Event), s.current = some e →
    endVisit s .fault = { s with netState := .faulted, netFault := some ⟨s.cursor, e.faultCause, e.faultInfo⟩ }
      ∧ (ev ≠ .fault → s.netState ≠ .running → endVisit s ev = s)
      ∧ (ev ≠ .fault → s.netState = .running → s.cursor + 1 ≠ s.cfg.nEngines →
        endVisit s ev = { s with cursor := s.cursor + 1 })
      ∧ (ev ≠ .fault → s.netState = .running → s.cursor + 1 = s.cfg.nEngines →
        endVisit s ev = endOfPass { s with cursor := 0 })

/-- spec/60_exceptions.md section 4 (R242 to R244): the network's step of the spec, a whole visit and the scheduler's work,
is what the machine's steps, one cycle each, come to (log 7). -/
def Obligations.NetworkStepIsReached : Prop :=
  ∀ (fuel : Nat) (s t : State), s.cfg.topology = .network → s.netState = .running → netStep fuel s = some t →
    ∃ n, 1 ≤ n ∧ n ≤ fuel ∧ core.run n s = .next t

/-- R258 with spec/10_state.md R39: a network that has ended makes no further step. -/
def Obligations.EndedNetworkStands : Prop :=
  ∀ s : State, s.cfg.topology = .network → s.netState ≠ .running → ∀ n, core.run n s = .next s
end

