-- ==== Sys2Proof/Laws/Memory.lean ====
section
/-!
SUPPORT. The laws of memory: reading what was written, and that every operation keeps the canonical form.
-/

namespace Sys2Proof.Machine

theorem wfFrom_mono {m : Memory} {lo lo' : Nat} (h : lo' ≤ lo) (hm : Memory.wfFrom lo m = true) :
    Memory.wfFrom lo' m = true := by
  cases m with
  | nil => rfl
  | cons p m =>
    simp only [Memory.wfFrom, Bool.and_eq_true, decide_eq_true_eq] at hm ⊢
    exact ⟨⟨by omega, hm.1.2⟩, hm.2⟩

/-- A canonical list that starts at `lo` says nothing of the cells below `lo`. -/
theorem read_below {m : Memory} {lo a : Nat} (hm : Memory.wfFrom lo m = true) (h : a < lo) : m.read a = 0 := by
  induction m generalizing lo with
  | nil => rfl
  | cons p m ih =>
    simp only [Memory.wfFrom, Bool.and_eq_true, decide_eq_true_eq] at hm
    rw [Memory.read, if_neg (by omega), ih hm.2 (by omega)]

theorem wfFrom_put {m : Memory} {lo a : Nat} {v : Word} (hlo : lo ≤ a) (hm : Memory.wfFrom (a + 1) m = true) :
    Memory.wfFrom lo (Memory.put a v m) = true := by
  unfold Memory.put
  split
  · exact wfFrom_mono (by omega) hm
  · simp_all [Memory.wfFrom]

theorem wfFrom_write {m : Memory} {lo a : Nat} {v : Word} (hlo : lo ≤ a) (hm : Memory.wfFrom lo m = true) :
    Memory.wfFrom lo (m.write a v) = true := by
  induction m generalizing lo with
  | nil => exact wfFrom_put hlo rfl
  | cons p m ih =>
    obtain ⟨b, u⟩ := p
    have hcons := hm
    simp only [Memory.wfFrom, Bool.and_eq_true, decide_eq_true_eq] at hm
    rw [Memory.write]
    split_ifs with h1 h2
    · exact wfFrom_put hlo (by simp [Memory.wfFrom, hm.1.2, hm.2]; omega)
    · exact wfFrom_put hlo (wfFrom_mono (by omega) hm.2)
    · simp [Memory.wfFrom, hm.1.1, hm.1.2, ih (show b + 1 ≤ a by omega) hm.2]

/-- A write keeps the canonical form. -/
theorem write_wf {m : Memory} (a : Nat) (v : Word) (hm : m.wf = true) : (m.write a v).wf = true :=
  wfFrom_write (Nat.zero_le a) hm

theorem read_put_same {m : Memory} {a : Nat} {v : Word} (hm : Memory.wfFrom (a + 1) m = true) :
    (Memory.put a v m).read a = v := by
  unfold Memory.put
  split
  · rw [read_below hm (by omega)]; exact (‹v = 0›).symm
  · simp [Memory.read]

theorem read_put_other {m : Memory} {a b : Nat} {v : Word} (h : b ≠ a) : (Memory.put a v m).read b = m.read b := by
  unfold Memory.put
  split
  · rfl
  · simp [Memory.read, h]

theorem wfFrom_read_write_same {m : Memory} {lo a : Nat} {v : Word} (hm : Memory.wfFrom lo m = true) :
    (m.write a v).read a = v := by
  induction m generalizing lo with
  | nil => exact read_put_same rfl
  | cons p m ih =>
    obtain ⟨b, u⟩ := p
    simp only [Memory.wfFrom, Bool.and_eq_true, decide_eq_true_eq] at hm
    rw [Memory.write]
    split_ifs with h1 h2
    · exact read_put_same (by simp [Memory.wfFrom, hm.1.2, hm.2]; omega)
    · exact read_put_same (h2 ▸ hm.2)
    · rw [Memory.read, if_neg h2, ih hm.2]

/-- A read after a write to the same cell gives the value written. -/
theorem read_write_same {m : Memory} (a : Nat) (v : Word) (hm : m.wf = true) : (m.write a v).read a = v :=
  wfFrom_read_write_same hm

/-- A write leaves every other cell alone. -/
theorem read_write_other {m : Memory} {a b : Nat} {v : Word} (h : b ≠ a) : (m.write a v).read b = m.read b := by
  induction m with
  | nil => exact read_put_other h
  | cons p m ih =>
    obtain ⟨c, u⟩ := p
    rw [Memory.write]
    split_ifs with h1 h2
    · exact read_put_other h
    · rw [read_put_other h, Memory.read, if_neg (h2 ▸ h)]
    · simp only [Memory.read, ih]

/-- What a memory lists after a write: what it listed, or the cell written. -/
theorem mem_write {m : Memory} {a : Nat} {v : Word} {p : Nat × Word} (h : p ∈ m.write a v) : p ∈ m ∨ p = (a, v) := by
  have hput : ∀ m' : Memory, p ∈ Memory.put a v m' → p ∈ m' ∨ p = (a, v) := by
    intro m' h'
    unfold Memory.put at h'
    split at h'
    · exact .inl h'
    · exact (List.mem_cons.mp h').symm
  induction m with
  | nil => exact hput [] h
  | cons q m ih =>
    obtain ⟨b, u⟩ := q
    rw [Memory.write] at h
    split_ifs at h with h1 h2
    · exact hput _ h
    · exact (hput _ h).imp_left (List.mem_cons_of_mem _)
    · rcases List.mem_cons.mp h with rfl | h
      · exact .inl List.mem_cons_self
      · exact (ih h).imp_left (List.mem_cons_of_mem _)

/-- A cell's content is 0 or listed. -/
theorem read_mem (m : Memory) (a : Nat) : m.read a = 0 ∨ (a, m.read a) ∈ m := by
  induction m with
  | nil => exact .inl rfl
  | cons p m ih =>
    obtain ⟨b, v⟩ := p
    rw [Memory.read]
    split_ifs with h
    · exact .inr (h ▸ List.mem_cons_self)
    · exact ih.imp_right (List.mem_cons_of_mem _)

theorem wfFrom_ofList (a : Nat) (vs : List Word) : Memory.wfFrom a (Memory.ofList a vs) = true := by
  induction vs generalizing a with
  | nil => rfl
  | cons v vs ih => exact wfFrom_put le_rfl (ih (a + 1))

/-- A memory made of a list of cells is in its canonical form. -/
theorem ofList_wf (vs : List Word) : (Memory.ofList 0 vs).wf = true := wfFrom_ofList 0 vs

/-- A memory made of a list of cells holds them from its first address on, and 0 elsewhere. -/
theorem read_ofList (a b : Nat) (vs : List Word) (h : a ≤ b) : (Memory.ofList a vs).read b = vs.getD (b - a) 0 := by
  induction vs generalizing a with
  | nil => rfl
  | cons v vs ih =>
    rw [Memory.ofList]
    rcases eq_or_ne b a with rfl | hne
    · rw [read_put_same (wfFrom_ofList _ _)]; simp
    · rw [read_put_other hne, ih (a + 1) (by omega), show b - a = (b - (a + 1)) + 1 by omega]
      rfl

/-- What a memory made of a list of cells lists. -/
theorem mem_ofList {a : Nat} {vs : List Word} {p : Nat × Word} (h : p ∈ Memory.ofList a vs) :
    a ≤ p.1 ∧ p.1 < a + vs.length ∧ p.2 ∈ vs := by
  induction vs generalizing a with
  | nil => simp [Memory.ofList] at h
  | cons v vs ih =>
    rw [Memory.ofList, Memory.put] at h
    split at h
    · obtain ⟨h1, h2, h3⟩ := ih h
      exact ⟨by omega, by simp; omega, List.mem_cons_of_mem _ h3⟩
    · rcases List.mem_cons.mp h with rfl | h
      · simp
      · obtain ⟨h1, h2, h3⟩ := ih h
        exact ⟨by omega, by simp; omega, List.mem_cons_of_mem _ h3⟩

end Sys2Proof.Machine
end

