-- ==== Sys2Proof/Laws/State.lean ====
section
/-!
SUPPORT. One lemma for each field of the state and each named update of it, so that no later proof unfolds a record
update.
-/

namespace Sys2Proof.Machine

/-! ### `setIp` -/

@[simp] theorem setIp_straps (e : Engine) (v : Word) : (setIp e v).straps = e.straps := rfl
@[simp] theorem setIp_mem (e : Engine) (v : Word) : (setIp e v).mem = e.mem := rfl
@[simp] theorem setIp_ip (e : Engine) (v : Word) : (setIp e v).ip = v := rfl
@[simp] theorem setIp_rb (e : Engine) (v : Word) : (setIp e v).rb = e.rb := rfl
@[simp] theorem setIp_life (e : Engine) (v : Word) : (setIp e v).life = e.life := rfl
@[simp] theorem setIp_lastOutput (e : Engine) (v : Word) : (setIp e v).lastOutput = e.lastOutput := rfl
@[simp] theorem setIp_inputFailed (e : Engine) (v : Word) : (setIp e v).inputFailed = e.inputFailed := rfl
@[simp] theorem setIp_faultCause (e : Engine) (v : Word) : (setIp e v).faultCause = e.faultCause := rfl
@[simp] theorem setIp_faultReason (e : Engine) (v : Word) : (setIp e v).faultReason = e.faultReason := rfl
@[simp] theorem setIp_faultInfo (e : Engine) (v : Word) : (setIp e v).faultInfo = e.faultInfo := rfl
@[simp] theorem setIp_inq (e : Engine) (v : Word) : (setIp e v).inq = e.inq := rfl
@[simp] theorem setIp_outLog (e : Engine) (v : Word) : (setIp e v).outLog = e.outLog := rfl
@[simp] theorem setIp_handed (e : Engine) (v : Word) : (setIp e v).handed = e.handed := rfl
@[simp] theorem setIp_draws (e : Engine) (v : Word) : (setIp e v).draws = e.draws := rfl

/-! ### `advance` -/

@[simp] theorem advance_straps (e : Engine) (n : Nat) : (advance e n).straps = e.straps := rfl
@[simp] theorem advance_mem (e : Engine) (n : Nat) : (advance e n).mem = e.mem := rfl
@[simp] theorem advance_ip (e : Engine) (n : Nat) : (advance e n).ip = e.ip + n := rfl
@[simp] theorem advance_rb (e : Engine) (n : Nat) : (advance e n).rb = e.rb := rfl
@[simp] theorem advance_life (e : Engine) (n : Nat) : (advance e n).life = e.life := rfl
@[simp] theorem advance_lastOutput (e : Engine) (n : Nat) : (advance e n).lastOutput = e.lastOutput := rfl
@[simp] theorem advance_inputFailed (e : Engine) (n : Nat) : (advance e n).inputFailed = e.inputFailed := rfl
@[simp] theorem advance_faultCause (e : Engine) (n : Nat) : (advance e n).faultCause = e.faultCause := rfl
@[simp] theorem advance_faultReason (e : Engine) (n : Nat) : (advance e n).faultReason = e.faultReason := rfl
@[simp] theorem advance_faultInfo (e : Engine) (n : Nat) : (advance e n).faultInfo = e.faultInfo := rfl
@[simp] theorem advance_inq (e : Engine) (n : Nat) : (advance e n).inq = e.inq := rfl
@[simp] theorem advance_outLog (e : Engine) (n : Nat) : (advance e n).outLog = e.outLog := rfl
@[simp] theorem advance_handed (e : Engine) (n : Nat) : (advance e n).handed = e.handed := rfl
@[simp] theorem advance_draws (e : Engine) (n : Nat) : (advance e n).draws = e.draws := rfl

/-! ### `setRb` -/

@[simp] theorem setRb_straps (e : Engine) (v : Word) : (setRb e v).straps = e.straps := rfl
@[simp] theorem setRb_mem (e : Engine) (v : Word) : (setRb e v).mem = e.mem := rfl
@[simp] theorem setRb_ip (e : Engine) (v : Word) : (setRb e v).ip = e.ip := rfl
@[simp] theorem setRb_rb (e : Engine) (v : Word) : (setRb e v).rb = v := rfl
@[simp] theorem setRb_life (e : Engine) (v : Word) : (setRb e v).life = e.life := rfl
@[simp] theorem setRb_lastOutput (e : Engine) (v : Word) : (setRb e v).lastOutput = e.lastOutput := rfl
@[simp] theorem setRb_inputFailed (e : Engine) (v : Word) : (setRb e v).inputFailed = e.inputFailed := rfl
@[simp] theorem setRb_faultCause (e : Engine) (v : Word) : (setRb e v).faultCause = e.faultCause := rfl
@[simp] theorem setRb_faultReason (e : Engine) (v : Word) : (setRb e v).faultReason = e.faultReason := rfl
@[simp] theorem setRb_faultInfo (e : Engine) (v : Word) : (setRb e v).faultInfo = e.faultInfo := rfl
@[simp] theorem setRb_inq (e : Engine) (v : Word) : (setRb e v).inq = e.inq := rfl
@[simp] theorem setRb_outLog (e : Engine) (v : Word) : (setRb e v).outLog = e.outLog := rfl
@[simp] theorem setRb_handed (e : Engine) (v : Word) : (setRb e v).handed = e.handed := rfl
@[simp] theorem setRb_draws (e : Engine) (v : Word) : (setRb e v).draws = e.draws := rfl

/-! ### `setLife` -/

@[simp] theorem setLife_straps (e : Engine) (l : Lifecycle) : (setLife e l).straps = e.straps := rfl
@[simp] theorem setLife_mem (e : Engine) (l : Lifecycle) : (setLife e l).mem = e.mem := rfl
@[simp] theorem setLife_ip (e : Engine) (l : Lifecycle) : (setLife e l).ip = e.ip := rfl
@[simp] theorem setLife_rb (e : Engine) (l : Lifecycle) : (setLife e l).rb = e.rb := rfl
@[simp] theorem setLife_life (e : Engine) (l : Lifecycle) : (setLife e l).life = l := rfl
@[simp] theorem setLife_lastOutput (e : Engine) (l : Lifecycle) : (setLife e l).lastOutput = e.lastOutput := rfl
@[simp] theorem setLife_inputFailed (e : Engine) (l : Lifecycle) : (setLife e l).inputFailed = e.inputFailed := rfl
@[simp] theorem setLife_faultCause (e : Engine) (l : Lifecycle) : (setLife e l).faultCause = e.faultCause := rfl
@[simp] theorem setLife_faultReason (e : Engine) (l : Lifecycle) : (setLife e l).faultReason = e.faultReason := rfl
@[simp] theorem setLife_faultInfo (e : Engine) (l : Lifecycle) : (setLife e l).faultInfo = e.faultInfo := rfl
@[simp] theorem setLife_inq (e : Engine) (l : Lifecycle) : (setLife e l).inq = e.inq := rfl
@[simp] theorem setLife_outLog (e : Engine) (l : Lifecycle) : (setLife e l).outLog = e.outLog := rfl
@[simp] theorem setLife_handed (e : Engine) (l : Lifecycle) : (setLife e l).handed = e.handed := rfl
@[simp] theorem setLife_draws (e : Engine) (l : Lifecycle) : (setLife e l).draws = e.draws := rfl

/-! ### `startEngine` -/

@[simp] theorem startEngine_straps (e : Engine) : (startEngine e).straps = e.straps := rfl
@[simp] theorem startEngine_mem (e : Engine) : (startEngine e).mem = e.mem := rfl
@[simp] theorem startEngine_ip (e : Engine) : (startEngine e).ip = e.ip := rfl
@[simp] theorem startEngine_rb (e : Engine) : (startEngine e).rb = e.rb := rfl
@[simp] theorem startEngine_life (e : Engine) : (startEngine e).life = .running := rfl
@[simp] theorem startEngine_lastOutput (e : Engine) : (startEngine e).lastOutput = e.lastOutput := rfl
@[simp] theorem startEngine_inputFailed (e : Engine) : (startEngine e).inputFailed = e.inputFailed := rfl
@[simp] theorem startEngine_faultCause (e : Engine) : (startEngine e).faultCause = e.faultCause := rfl
@[simp] theorem startEngine_faultReason (e : Engine) : (startEngine e).faultReason = e.faultReason := rfl
@[simp] theorem startEngine_faultInfo (e : Engine) : (startEngine e).faultInfo = e.faultInfo := rfl
@[simp] theorem startEngine_inq (e : Engine) : (startEngine e).inq = e.inq := rfl
@[simp] theorem startEngine_outLog (e : Engine) : (startEngine e).outLog = e.outLog := rfl
@[simp] theorem startEngine_handed (e : Engine) : (startEngine e).handed = e.handed := rfl
@[simp] theorem startEngine_draws (e : Engine) : (startEngine e).draws = e.draws := rfl

/-! ### `raise` -/

@[simp] theorem raise_straps (e : Engine) (t : Trap) : (raise e t).straps = e.straps := rfl
@[simp] theorem raise_mem (e : Engine) (t : Trap) : (raise e t).mem = e.mem := rfl
@[simp] theorem raise_ip (e : Engine) (t : Trap) : (raise e t).ip = e.ip := rfl
@[simp] theorem raise_rb (e : Engine) (t : Trap) : (raise e t).rb = e.rb := rfl
@[simp] theorem raise_life (e : Engine) (t : Trap) : (raise e t).life = .faulted := rfl
@[simp] theorem raise_lastOutput (e : Engine) (t : Trap) : (raise e t).lastOutput = e.lastOutput := rfl
@[simp] theorem raise_inputFailed (e : Engine) (t : Trap) : (raise e t).inputFailed = e.inputFailed := rfl
@[simp] theorem raise_faultCause (e : Engine) (t : Trap) : (raise e t).faultCause = some t.cause := rfl
@[simp] theorem raise_faultReason (e : Engine) (t : Trap) : (raise e t).faultReason = t.reason := rfl
@[simp] theorem raise_faultInfo (e : Engine) (t : Trap) : (raise e t).faultInfo = t.info := rfl
@[simp] theorem raise_inq (e : Engine) (t : Trap) : (raise e t).inq = e.inq := rfl
@[simp] theorem raise_outLog (e : Engine) (t : Trap) : (raise e t).outLog = e.outLog := rfl
@[simp] theorem raise_handed (e : Engine) (t : Trap) : (raise e t).handed = e.handed := rfl
@[simp] theorem raise_draws (e : Engine) (t : Trap) : (raise e t).draws = e.draws := rfl

/-! ### `State.setCurrent` -/

@[simp] theorem State.setCurrent_cfg (s : State) (e : Engine) : (s.setCurrent e).cfg = s.cfg := rfl
@[simp] theorem State.setCurrent_eng (s : State) (e : Engine) : (s.setCurrent e).eng = s.eng.set s.cursor e := rfl
@[simp] theorem State.setCurrent_acc (s : State) (e : Engine) : (s.setCurrent e).acc = s.acc := rfl
@[simp] theorem State.setCurrent_natHeld (s : State) (e : Engine) : (s.setCurrent e).natHeld = s.natHeld := rfl
@[simp] theorem State.setCurrent_natLastY (s : State) (e : Engine) : (s.setCurrent e).natLastY = s.natLastY := rfl
@[simp] theorem State.setCurrent_netState (s : State) (e : Engine) : (s.setCurrent e).netState = s.netState := rfl
@[simp] theorem State.setCurrent_netAnswer (s : State) (e : Engine) : (s.setCurrent e).netAnswer = s.netAnswer := rfl
@[simp] theorem State.setCurrent_netFault (s : State) (e : Engine) : (s.setCurrent e).netFault = s.netFault := rfl
@[simp] theorem State.setCurrent_cursor (s : State) (e : Engine) : (s.setCurrent e).cursor = s.cursor := rfl
@[simp] theorem State.setCurrent_reply (s : State) (e : Engine) : (s.setCurrent e).reply = s.reply := rfl
@[simp] theorem State.setCurrent_netLog (s : State) (e : Engine) : (s.setCurrent e).netLog = s.netLog := rfl

/-! ### `State.answer` -/

@[simp] theorem State.answer_cfg (s : State) (ev : Event) : (s.answer ev).cfg = s.cfg := rfl
@[simp] theorem State.answer_eng (s : State) (ev : Event) : (s.answer ev).eng = s.eng := rfl
@[simp] theorem State.answer_acc (s : State) (ev : Event) : (s.answer ev).acc = s.acc := rfl
@[simp] theorem State.answer_natHeld (s : State) (ev : Event) : (s.answer ev).natHeld = s.natHeld := rfl
@[simp] theorem State.answer_natLastY (s : State) (ev : Event) : (s.answer ev).natLastY = s.natLastY := rfl
@[simp] theorem State.answer_netState (s : State) (ev : Event) : (s.answer ev).netState = s.netState := rfl
@[simp] theorem State.answer_netAnswer (s : State) (ev : Event) : (s.answer ev).netAnswer = s.netAnswer := rfl
@[simp] theorem State.answer_netFault (s : State) (ev : Event) : (s.answer ev).netFault = s.netFault := rfl
@[simp] theorem State.answer_cursor (s : State) (ev : Event) : (s.answer ev).cursor = s.cursor := rfl
@[simp] theorem State.answer_reply (s : State) (ev : Event) : (s.answer ev).reply = some ev := rfl
@[simp] theorem State.answer_netLog (s : State) (ev : Event) : (s.answer ev).netLog = s.netLog := rfl

/-! ### `setInputFailed` -/

@[simp] theorem setInputFailed_straps (e : Engine) (b : Bool) : (setInputFailed e b).straps = e.straps := rfl
@[simp] theorem setInputFailed_mem (e : Engine) (b : Bool) : (setInputFailed e b).mem = e.mem := rfl
@[simp] theorem setInputFailed_ip (e : Engine) (b : Bool) : (setInputFailed e b).ip = e.ip := rfl
@[simp] theorem setInputFailed_rb (e : Engine) (b : Bool) : (setInputFailed e b).rb = e.rb := rfl
@[simp] theorem setInputFailed_life (e : Engine) (b : Bool) : (setInputFailed e b).life = e.life := rfl
@[simp] theorem setInputFailed_lastOutput (e : Engine) (b : Bool) : (setInputFailed e b).lastOutput = e.lastOutput := rfl
@[simp] theorem setInputFailed_inputFailed (e : Engine) (b : Bool) : (setInputFailed e b).inputFailed = b := rfl
@[simp] theorem setInputFailed_faultCause (e : Engine) (b : Bool) : (setInputFailed e b).faultCause = e.faultCause := rfl
@[simp] theorem setInputFailed_faultReason (e : Engine) (b : Bool) : (setInputFailed e b).faultReason = e.faultReason := rfl
@[simp] theorem setInputFailed_faultInfo (e : Engine) (b : Bool) : (setInputFailed e b).faultInfo = e.faultInfo := rfl
@[simp] theorem setInputFailed_inq (e : Engine) (b : Bool) : (setInputFailed e b).inq = e.inq := rfl
@[simp] theorem setInputFailed_outLog (e : Engine) (b : Bool) : (setInputFailed e b).outLog = e.outLog := rfl
@[simp] theorem setInputFailed_handed (e : Engine) (b : Bool) : (setInputFailed e b).handed = e.handed := rfl
@[simp] theorem setInputFailed_draws (e : Engine) (b : Bool) : (setInputFailed e b).draws = e.draws := rfl

/-! ### `recordOutput` -/

@[simp] theorem recordOutput_straps (e : Engine) (v : Word) : (recordOutput e v).straps = e.straps := rfl
@[simp] theorem recordOutput_mem (e : Engine) (v : Word) : (recordOutput e v).mem = e.mem := rfl
@[simp] theorem recordOutput_ip (e : Engine) (v : Word) : (recordOutput e v).ip = e.ip := rfl
@[simp] theorem recordOutput_rb (e : Engine) (v : Word) : (recordOutput e v).rb = e.rb := rfl
@[simp] theorem recordOutput_life (e : Engine) (v : Word) : (recordOutput e v).life = e.life := rfl
@[simp] theorem recordOutput_lastOutput (e : Engine) (v : Word) : (recordOutput e v).lastOutput = some v := rfl
@[simp] theorem recordOutput_inputFailed (e : Engine) (v : Word) : (recordOutput e v).inputFailed = e.inputFailed := rfl
@[simp] theorem recordOutput_faultCause (e : Engine) (v : Word) : (recordOutput e v).faultCause = e.faultCause := rfl
@[simp] theorem recordOutput_faultReason (e : Engine) (v : Word) : (recordOutput e v).faultReason = e.faultReason := rfl
@[simp] theorem recordOutput_faultInfo (e : Engine) (v : Word) : (recordOutput e v).faultInfo = e.faultInfo := rfl
@[simp] theorem recordOutput_inq (e : Engine) (v : Word) : (recordOutput e v).inq = e.inq := rfl
@[simp] theorem recordOutput_outLog (e : Engine) (v : Word) : (recordOutput e v).outLog = e.outLog ++ [v] := rfl
@[simp] theorem recordOutput_handed (e : Engine) (v : Word) : (recordOutput e v).handed = e.handed := rfl
@[simp] theorem recordOutput_draws (e : Engine) (v : Word) : (recordOutput e v).draws = e.draws := rfl

/-! ### `enqueue` -/

@[simp] theorem enqueue_cfg (s : State) (d : Nat) (x y : Word) : (enqueue s d x y).cfg = s.cfg := rfl
@[simp] theorem enqueue_eng (s : State) (d : Nat) (x y : Word) : (enqueue s d x y).eng = s.eng.modify d fun e => { e with inq := e.inq ++ [x, y] } := rfl
@[simp] theorem enqueue_acc (s : State) (d : Nat) (x y : Word) : (enqueue s d x y).acc = s.acc := rfl
@[simp] theorem enqueue_natHeld (s : State) (d : Nat) (x y : Word) : (enqueue s d x y).natHeld = s.natHeld := rfl
@[simp] theorem enqueue_natLastY (s : State) (d : Nat) (x y : Word) : (enqueue s d x y).natLastY = s.natLastY := rfl
@[simp] theorem enqueue_netState (s : State) (d : Nat) (x y : Word) : (enqueue s d x y).netState = s.netState := rfl
@[simp] theorem enqueue_netAnswer (s : State) (d : Nat) (x y : Word) : (enqueue s d x y).netAnswer = s.netAnswer := rfl
@[simp] theorem enqueue_netFault (s : State) (d : Nat) (x y : Word) : (enqueue s d x y).netFault = s.netFault := rfl
@[simp] theorem enqueue_cursor (s : State) (d : Nat) (x y : Word) : (enqueue s d x y).cursor = s.cursor := rfl
@[simp] theorem enqueue_reply (s : State) (d : Nat) (x y : Word) : (enqueue s d x y).reply = s.reply := rfl
@[simp] theorem enqueue_netLog (s : State) (d : Nat) (x y : Word) : (enqueue s d x y).netLog = s.netLog := rfl

/-! ### `failNetwork` -/

@[simp] theorem failNetwork_cfg (s : State) (f : NetFault) : (failNetwork s f).cfg = s.cfg := rfl
@[simp] theorem failNetwork_eng (s : State) (f : NetFault) : (failNetwork s f).eng = s.eng := rfl
@[simp] theorem failNetwork_acc (s : State) (f : NetFault) : (failNetwork s f).acc = s.acc := rfl
@[simp] theorem failNetwork_natHeld (s : State) (f : NetFault) : (failNetwork s f).natHeld = s.natHeld := rfl
@[simp] theorem failNetwork_natLastY (s : State) (f : NetFault) : (failNetwork s f).natLastY = s.natLastY := rfl
@[simp] theorem failNetwork_netState (s : State) (f : NetFault) : (failNetwork s f).netState = .faulted := rfl
@[simp] theorem failNetwork_netAnswer (s : State) (f : NetFault) : (failNetwork s f).netAnswer = s.netAnswer := rfl
@[simp] theorem failNetwork_netFault (s : State) (f : NetFault) : (failNetwork s f).netFault = some f := rfl
@[simp] theorem failNetwork_cursor (s : State) (f : NetFault) : (failNetwork s f).cursor = s.cursor := rfl
@[simp] theorem failNetwork_reply (s : State) (f : NetFault) : (failNetwork s f).reply = s.reply := rfl
@[simp] theorem failNetwork_netLog (s : State) (f : NetFault) : (failNetwork s f).netLog = s.netLog := rfl

/-! ### `terminate` -/

@[simp] theorem terminate_cfg (s : State) (y : Word) : (terminate s y).cfg = s.cfg := rfl
@[simp] theorem terminate_eng (s : State) (y : Word) : (terminate s y).eng = s.eng := rfl
@[simp] theorem terminate_acc (s : State) (y : Word) : (terminate s y).acc = s.acc := rfl
@[simp] theorem terminate_natHeld (s : State) (y : Word) : (terminate s y).natHeld = s.natHeld := rfl
@[simp] theorem terminate_natLastY (s : State) (y : Word) : (terminate s y).natLastY = s.natLastY := rfl
@[simp] theorem terminate_netState (s : State) (y : Word) : (terminate s y).netState = .terminated := rfl
@[simp] theorem terminate_netAnswer (s : State) (y : Word) : (terminate s y).netAnswer = some y := rfl
@[simp] theorem terminate_netFault (s : State) (y : Word) : (terminate s y).netFault = s.netFault := rfl
@[simp] theorem terminate_cursor (s : State) (y : Word) : (terminate s y).cursor = s.cursor := rfl
@[simp] theorem terminate_reply (s : State) (y : Word) : (terminate s y).reply = s.reply := rfl
@[simp] theorem terminate_netLog (s : State) (y : Word) : (terminate s y).netLog = s.netLog := rfl

/-! ### The engine that runs -/

/-- The engine `cursor` names, after it was replaced. -/
@[simp] theorem current_setCurrent (s : State) (e e' : Engine) (h : s.current = some e) :
    (s.setCurrent e').current = some e' := by
  obtain ⟨hlt, -⟩ := List.getElem?_eq_some_iff.mp h
  simp [State.current, hlt]

@[simp] theorem current_answer (s : State) (ev : Event) : (s.answer ev).current = s.current := rfl

/-- An engine of the machine after the running one was replaced: the new one, or one that was there. -/
theorem mem_setCurrent {s : State} {e e' : Engine} (h : e ∈ (s.setCurrent e').eng) : e = e' ∨ e ∈ s.eng :=
  (List.mem_or_eq_of_mem_set h).symm

/-- The running engine is one of the machine's. -/
theorem current_mem {s : State} {e : Engine} (h : s.current = some e) : e ∈ s.eng := List.mem_of_getElem? h

@[simp] theorem setCurrent_setCurrent (s : State) (e e' : Engine) :
    (s.setCurrent e).setCurrent e' = s.setCurrent e' := by
  simp [State.setCurrent]

end Sys2Proof.Machine
end

