-- ==== Sys2Proof/Laws/Operands.lean ====
section
/-!
SUPPORT. What steps 3 to 5 of a cycle give, in the terms of Safety.lean: the operands where every address the
instruction accesses exists, else `IllegalAddress` of the first that does not.
-/

namespace Sys2Proof.Machine

/-- Everything an access in a bind can do. -/
theorem memRead_bind {β : Type} (e : Engine) (a : Int) (f : Word → Except Trap β) :
    (memRead e a >>= f) = if inMemory e a then f (e.mem.read a.toNat) else .error (illegalAddress a) := by
  unfold memRead
  split <;> rfl

theorem checkAddress_bind {β : Type} (e : Engine) (a : Int) (f : Unit → Except Trap β) :
    (checkAddress e a >>= f) = if inMemory e a then f () else .error (illegalAddress a) := by
  unfold checkAddress
  split <;> rfl

/-- The first of a list of addresses that does not exist. -/
theorem find_illegal_cons (e : Engine) (a : Int) (l : List Int) :
    (a :: l).find? (fun x => !inMemory e x) = if inMemory e a then l.find? (fun x => !inMemory e x) else some a := by
  cases h : inMemory e a <;> simp [h]

/-- What resolving the parameters of an instruction gives: `IllegalAddress` of the first address that does not exist,
else `ok`. -/
def resolved {α : Type} (e : Engine) (l : List Int) (x : α) : Except Trap α :=
  match l.find? fun a => !inMemory e a with
  | some a => .error (illegalAddress a)
  | none => .ok x

theorem resolved_nil {α : Type} (e : Engine) (x : α) : resolved e [] x = .ok x := rfl

theorem resolved_cons {α : Type} (e : Engine) (a : Int) (l : List Int) (x : α) :
    resolved e (a :: l) x = if inMemory e a then resolved e l x else .error (illegalAddress a) := by
  unfold resolved
  rw [find_illegal_cons]
  cases inMemory e a <;> rfl

theorem resolved_ok {α : Type} {e : Engine} {l : List Int} (x : α) (h : ∀ a ∈ l, inMemory e a = true) :
    resolved e l x = .ok x := by
  have : l.find? (fun a => !inMemory e a) = none := by simpa using h
  simp [resolved, this]

theorem resolved_error {α : Type} {e : Engine} {l : List Int} {a : Int} (x : α)
    (h : l.find? (fun a => !inMemory e a) = some a) : resolved e l x = .error (illegalAddress a) := by
  simp [resolved, h]

/-- `param` and `operand` in a bind. -/
theorem param_bind {β : Type} (e : Engine) (k : Nat) (f : Word → Except Trap β) :
    (param e k >>= f) = if inMemory e (e.ip + k) then f (paramWord e k) else .error (illegalAddress (e.ip + k)) :=
  memRead_bind e _ f

theorem operand_bind {β : Type} (e : Engine) (m : Mode) (k : Nat) (f : Word → Except Trap β) :
    (operand e m (paramWord e k) >>= f) =
      if m = .immediate ∨ inMemory e (paramAddress e m k) = true then f (operandValue e m k)
      else .error (illegalAddress (paramAddress e m k)) := by
  cases m
  · exact (memRead_bind e _ f).trans (by simp [operandValue, paramAddress])
  · rfl
  · exact (memRead_bind e _ f).trans (by simp [operandValue, paramAddress])

theorem outAddress_bind {β : Type} (e : Engine) (m : Mode) (k : Nat) (f : Int → Except Trap β) :
    (outAddress e m (paramWord e k) >>= f) =
      if inMemory e (paramAddress e m k) then f (paramAddress e m k)
      else .error (illegalAddress (paramAddress e m k)) := by
  unfold outAddress checkAddress paramAddress
  by_cases h : inMemory e (effectiveAddress e m (paramWord e k)) <;> simp [h, bind, Except.bind, pure, Except.pure]

/-- The operand addresses of a parameter list, as `resolved` walks them. -/
theorem resolved_operands {α : Type} (e : Engine) (k : Nat) (m : Mode) (ms : List Mode) (l : List Int) (x : α) :
    resolved e (operandAddresses e k (m :: ms) ++ l) x =
      if m = .immediate ∨ inMemory e (paramAddress e m k) = true then
        resolved e (operandAddresses e (k + 1) ms ++ l) x
      else .error (illegalAddress (paramAddress e m k)) := by
  by_cases h : m = .immediate
  · simp [operandAddresses, h]
  · simp [operandAddresses, h, resolved_cons]

@[simp] theorem operandAddresses_nil (e : Engine) (k : Nat) : operandAddresses e k [] = [] := rfl

/-- The parameter words, as `resolved` walks them. -/
theorem resolved_params_one {α : Type} (e : Engine) (l : List Int) (x : α) :
    resolved e (paramAddresses e 1 ++ l) x =
      if inMemory e (e.ip + (1 : Nat)) then resolved e l x else .error (illegalAddress (e.ip + (1 : Nat))) :=
  resolved_cons e _ l x

theorem resolved_params_two {α : Type} (e : Engine) (l : List Int) (x : α) :
    resolved e (paramAddresses e 2 ++ l) x =
      if inMemory e (e.ip + (1 : Nat)) then
        if inMemory e (e.ip + (2 : Nat)) then resolved e l x else .error (illegalAddress (e.ip + (2 : Nat)))
      else .error (illegalAddress (e.ip + (1 : Nat))) := by
  rw [← resolved_cons, ← resolved_cons]
  rfl

theorem resolved_params_three {α : Type} (e : Engine) (l : List Int) (x : α) :
    resolved e (paramAddresses e 3 ++ l) x =
      if inMemory e (e.ip + (1 : Nat)) then
        if inMemory e (e.ip + (2 : Nat)) then
          if inMemory e (e.ip + (3 : Nat)) then resolved e l x else .error (illegalAddress (e.ip + (3 : Nat)))
        else .error (illegalAddress (e.ip + (2 : Nat)))
      else .error (illegalAddress (e.ip + (1 : Nat))) := by
  rw [← resolved_cons, ← resolved_cons, ← resolved_cons]
  rfl

/-- The output address, the last `resolved` walks. -/
theorem resolved_output {α : Type} (e : Engine) (n : Nat) (d : Mode) (x : α) :
    resolved e (outputAddresses e n [d]) x =
      if inMemory e (paramAddress e d n) then .ok x else .error (illegalAddress (paramAddress e d n)) :=
  resolved_cons e _ [] x

/-- Steps 3 to 5 of format IIO. -/
theorem resolveIIO_eq (e : Engine) (i : Instr) {a b d : Mode} (hd : d.writable = true) (hn : paramCount i = 3)
    (hi : inputModes i = [a, b]) (ho : outputModes i = [d]) (w : Word) :
    resolveIIO e w a b d =
      resolved e (accesses e i) (operandValue e a 1, operandValue e b 2, paramAddress e d 3) := by
  simp only [accesses, hn, hi, ho, List.append_assoc, resolved_params_three, resolved_operands, operandAddresses_nil,
    List.nil_append, resolved_output]
  simp only [resolveIIO, checkOutput, hd, param_bind, operand_bind, outAddress_bind, if_true]
  rfl

/-- Steps 3 to 5 of format II. -/
theorem resolveII_eq (e : Engine) (i : Instr) {a b : Mode} (hn : paramCount i = 2)
    (hi : inputModes i = [a, b]) (ho : outputModes i = []) :
    resolveII e a b = resolved e (accesses e i) (operandValue e a 1, operandValue e b 2) := by
  simp only [accesses, hn, hi, ho, List.append_assoc, resolved_params_two, resolved_operands, operandAddresses_nil]
  simp only [resolveII, param_bind, operand_bind]
  rfl

/-- Steps 3 to 5 of format I. -/
theorem resolveI_eq (e : Engine) (i : Instr) {a : Mode} (hn : paramCount i = 1)
    (hi : inputModes i = [a]) (ho : outputModes i = []) :
    resolveI e a = resolved e (accesses e i) (operandValue e a 1) := by
  have h := operand_bind e a 1 Except.ok
  simp only [accesses, hn, hi, ho, List.append_assoc, resolved_params_one, resolved_operands, operandAddresses_nil]
  simp only [resolveI, param_bind]
  congr 1
  refine Eq.trans ?_ h
  cases operand e a (paramWord e 1) <;> rfl

/-- Steps 3 to 5 of format O. -/
theorem resolveO_eq (e : Engine) (i : Instr) {d : Mode} (hd : d.writable = true) (hn : paramCount i = 1)
    (hi : inputModes i = []) (ho : outputModes i = [d]) (w : Word) :
    resolveO e w d = resolved e (accesses e i) (paramAddress e d 1) := by
  have h := outAddress_bind e d 1 Except.ok
  simp only [accesses, hn, hi, ho, List.append_assoc, resolved_params_one, operandAddresses_nil, List.nil_append,
    resolved_output]
  simp only [resolveO, checkOutput, hd, param_bind, if_true]
  refine Eq.trans (b := if inMemory e (e.ip + (1 : Nat)) then outAddress e d (paramWord e 1) else _) rfl ?_
  congr 1
  refine Eq.trans ?_ h
  cases outAddress e d (paramWord e 1) <;> rfl

/-- An output parameter in immediate mode: the check of decode, made again. -/
theorem resolveIIO_immediate (e : Engine) (w : Word) (a b : Mode) :
    resolveIIO e w a b .immediate = .error (illegalInstruction .immediateOutput w) := rfl

theorem resolveO_immediate (e : Engine) (w : Word) :
    resolveO e w .immediate = .error (illegalInstruction .immediateOutput w) := rfl

end Sys2Proof.Machine
end

