-- ==== Sys2Proof/Laws/Exec.lean ====
section
/-!
SUPPORT. What each meaning does, once for each instruction and as one equation: `IllegalAddress` of the first address
it accesses that does not exist, else its effect. Later proofs cite these and unfold no meaning.
-/

namespace Sys2Proof.Machine

/-! ### Starting the engine moves no operand -/

@[simp] theorem inMemory_start (e : Engine) (a : Int) : inMemory (startEngine e) a = inMemory e a := rfl

@[simp] theorem paramWord_start (e : Engine) (k : Nat) : paramWord (startEngine e) k = paramWord e k := rfl

@[simp] theorem paramAddress_start (e : Engine) (m : Mode) (k : Nat) :
    paramAddress (startEngine e) m k = paramAddress e m k := by
  cases m <;> rfl

@[simp] theorem operandValue_start (e : Engine) (m : Mode) (k : Nat) :
    operandValue (startEngine e) m k = operandValue e m k := by
  cases m <;> rfl

theorem operandAddresses_start (e : Engine) (k : Nat) (ms : List Mode) :
    operandAddresses (startEngine e) k ms = operandAddresses e k ms := by
  induction ms generalizing k with
  | nil => rfl
  | cons m ms ih => simp [operandAddresses, ih]

@[simp] theorem accesses_start (e : Engine) (i : Instr) : accesses (startEngine e) i = accesses e i := by
  simp [accesses, operandAddresses_start, outputAddresses, paramAddresses]

theorem resolved_start {α : Type} (e : Engine) (l : List Int) (x : α) :
    resolved (startEngine e) l x = resolved e l x := rfl

/-! ### The shared shape -/

/-- A cycle of the running engine. -/
theorem onEngine_current {s : State} {e : Engine} (h : s.current = some e)
    (f : Engine → Except Trap (Engine × Event)) : onEngine s f = .next (finish s e (f (startEngine e))) := by
  simp [onEngine, h]

/-- A cycle that has resolved its parameters: a trap at the first address that does not exist, else what follows. -/
theorem finish_resolved {α : Type} {s : State} {e : Engine} {i : Instr} {x : α} {r : Except Trap α}
    (hr : r = resolved e (accesses e i) x) (g : α → Except Trap (Engine × Event)) :
    finish s e (r >>= g) =
      match firstIllegal e i with
      | some a => takeTrap s e (illegalAddress a)
      | none => finish s e (g x) := by
  subst hr
  unfold resolved firstIllegal
  cases (accesses e i).find? fun a => !inMemory e a <;> rfl

/-- Where nothing illegal is accessed, everything accessed exists. -/
theorem addressable_iff (e : Engine) (i : Instr) : Addressable e i ↔ firstIllegal e i = none := by
  simp [Addressable, firstIllegal]

/-- The output address of an instruction that accesses nothing illegal exists. -/
theorem output_inMemory {e : Engine} {i : Instr} {d : Mode} (ho : outputModes i = [d]) (h : firstIllegal e i = none) :
    inMemory e (paramAddress e d (paramCount i)) = true :=
  (addressable_iff e i).mpr h _ (by simp [accesses, ho, outputAddresses])

theorem memWrite_ok {e : Engine} {a : Int} (h : inMemory e a = true) (v : Word) :
    memWrite e a v = .ok { e with mem := e.mem.write a.toNat v } := by
  simp [memWrite, h]

/-! ### The instructions -/

theorem exec_add {s : State} {e : Engine} {d : Mode} (h : s.current = some e) (hd : d.writable = true) (a b : Mode) :
    exec (.add a b d) s =
      match firstIllegal e (.add a b d) with
      | some x => .next (takeTrap s e (illegalAddress x))
      | none =>
        if inRange s.cfg (operandValue e a 1 + operandValue e b 2) then
          .next (after s { e with
            life := .running
            mem := e.mem.write (paramAddress e d 3).toNat (operandValue e a 1 + operandValue e b 2)
            ip := e.ip + 4 } .complete)
        else .next (takeTrap s e (overflow (operandValue e a 1 + operandValue e b 2))) := by
  have hr := resolveIIO_eq (startEngine e) (.add a b d) hd rfl rfl rfl (encode (.add a b d))
  rw [accesses_start, resolved_start] at hr
  rw [show exec (.add a b d) s = execAdd a b d s from rfl, execAdd, onEngine_current h, finish_resolved hr]
  cases hf : firstIllegal e (.add a b d) with
  | some x => rfl
  | none =>
    have hm : inMemory (startEngine e) (paramAddress e d 3) = true := output_inMemory (d := d) rfl hf
    simp only [operandValue_start, paramAddress_start, writeResult, exactResult]
    split
    · simp only [bind, Except.bind, memWrite_ok hm]
      rfl
    · rfl

theorem exec_mul {s : State} {e : Engine} {d : Mode} (h : s.current = some e) (hd : d.writable = true) (a b : Mode) :
    exec (.mul a b d) s =
      match firstIllegal e (.mul a b d) with
      | some x => .next (takeTrap s e (illegalAddress x))
      | none =>
        if inRange s.cfg (operandValue e a 1 * operandValue e b 2) then
          .next (after s { e with
            life := .running
            mem := e.mem.write (paramAddress e d 3).toNat (operandValue e a 1 * operandValue e b 2)
            ip := e.ip + 4 } .complete)
        else .next (takeTrap s e (overflow (operandValue e a 1 * operandValue e b 2))) := by
  have hr := resolveIIO_eq (startEngine e) (.mul a b d) hd rfl rfl rfl (encode (.mul a b d))
  rw [accesses_start, resolved_start] at hr
  rw [show exec (.mul a b d) s = execMul a b d s from rfl, execMul, onEngine_current h, finish_resolved hr]
  cases hf : firstIllegal e (.mul a b d) with
  | some x => rfl
  | none =>
    have hm : inMemory (startEngine e) (paramAddress e d 3) = true := output_inMemory (d := d) rfl hf
    simp only [operandValue_start, paramAddress_start, writeResult, exactResult]
    split
    · simp only [bind, Except.bind, memWrite_ok hm]
      rfl
    · rfl

theorem exec_lt {s : State} {e : Engine} {d : Mode} (h : s.current = some e) (hd : d.writable = true) (a b : Mode) :
    exec (.lt a b d) s =
      match firstIllegal e (.lt a b d) with
      | some x => .next (takeTrap s e (illegalAddress x))
      | none =>
        .next (after s { e with
          life := .running
          mem := e.mem.write (paramAddress e d 3).toNat (if operandValue e a 1 < operandValue e b 2 then 1 else 0)
          ip := e.ip + 4 } .complete) := by
  have hr := resolveIIO_eq (startEngine e) (.lt a b d) hd rfl rfl rfl (encode (.lt a b d))
  rw [accesses_start, resolved_start] at hr
  rw [show exec (.lt a b d) s = execLt a b d s from rfl, execLt, onEngine_current h, finish_resolved hr]
  cases hf : firstIllegal e (.lt a b d) with
  | some x => rfl
  | none =>
    have hm : inMemory (startEngine e) (paramAddress e d 3) = true := output_inMemory (d := d) rfl hf
    simp only [operandValue_start, paramAddress_start, writeResult, truthWord, decide_eq_true_eq]
    simp only [bind, Except.bind, memWrite_ok hm]
    rfl

theorem exec_eq {s : State} {e : Engine} {d : Mode} (h : s.current = some e) (hd : d.writable = true) (a b : Mode) :
    exec (.eq a b d) s =
      match firstIllegal e (.eq a b d) with
      | some x => .next (takeTrap s e (illegalAddress x))
      | none =>
        .next (after s { e with
          life := .running
          mem := e.mem.write (paramAddress e d 3).toNat (if operandValue e a 1 = operandValue e b 2 then 1 else 0)
          ip := e.ip + 4 } .complete) := by
  have hr := resolveIIO_eq (startEngine e) (.eq a b d) hd rfl rfl rfl (encode (.eq a b d))
  rw [accesses_start, resolved_start] at hr
  rw [show exec (.eq a b d) s = execEq a b d s from rfl, execEq, onEngine_current h, finish_resolved hr]
  cases hf : firstIllegal e (.eq a b d) with
  | some x => rfl
  | none =>
    have hm : inMemory (startEngine e) (paramAddress e d 3) = true := output_inMemory (d := d) rfl hf
    simp only [operandValue_start, paramAddress_start, writeResult, truthWord, decide_eq_true_eq]
    simp only [bind, Except.bind, memWrite_ok hm]
    rfl

theorem exec_jt {s : State} {e : Engine} (h : s.current = some e) (a b : Mode) :
    exec (.jt a b) s =
      match firstIllegal e (.jt a b) with
      | some x => .next (takeTrap s e (illegalAddress x))
      | none =>
        .next (after s { e with
          life := .running
          ip := if operandValue e a 1 ≠ 0 then operandValue e b 2 else e.ip + 3 } .complete) := by
  have hr := resolveII_eq (startEngine e) (.jt a b) rfl rfl rfl
  rw [accesses_start, resolved_start] at hr
  rw [show exec (.jt a b) s = execJt a b s from rfl, execJt, onEngine_current h, finish_resolved hr]
  cases firstIllegal e (.jt a b) with
  | some x => rfl
  | none => by_cases hx : operandValue e a 1 = 0 <;> simp [jumpIf, isTrue, hx] <;> rfl

theorem exec_jf {s : State} {e : Engine} (h : s.current = some e) (a b : Mode) :
    exec (.jf a b) s =
      match firstIllegal e (.jf a b) with
      | some x => .next (takeTrap s e (illegalAddress x))
      | none =>
        .next (after s { e with
          life := .running
          ip := if operandValue e a 1 = 0 then operandValue e b 2 else e.ip + 3 } .complete) := by
  have hr := resolveII_eq (startEngine e) (.jf a b) rfl rfl rfl
  rw [accesses_start, resolved_start] at hr
  rw [show exec (.jf a b) s = execJf a b s from rfl, execJf, onEngine_current h, finish_resolved hr]
  cases firstIllegal e (.jf a b) with
  | some x => rfl
  | none => by_cases hx : operandValue e a 1 = 0 <;> simp [jumpIf, isTrue, hx] <;> rfl

theorem exec_arb {s : State} {e : Engine} (h : s.current = some e) (a : Mode) :
    exec (.arb a) s =
      match firstIllegal e (.arb a) with
      | some x => .next (takeTrap s e (illegalAddress x))
      | none =>
        if inRange s.cfg (e.rb + operandValue e a 1) then
          .next (after s { e with life := .running, rb := e.rb + operandValue e a 1, ip := e.ip + 2 } .complete)
        else .next (takeTrap s e (overflow (e.rb + operandValue e a 1))) := by
  have hr := resolveI_eq (startEngine e) (.arb a) rfl rfl rfl
  rw [accesses_start, resolved_start] at hr
  rw [show exec (.arb a) s = execArb a s from rfl, execArb, onEngine_current h, finish_resolved hr]
  cases firstIllegal e (.arb a) with
  | some x => rfl
  | none =>
    simp only [operandValue_start, exactResult, startEngine_rb]
    split <;> rfl

theorem exec_halt {s : State} {e : Engine} (h : s.current = some e) :
    exec .halt s = .next (after s { e with life := .halted, ip := e.ip + 1 } .halt) := by
  rw [show exec .halt s = execHalt s from rfl, execHalt, onEngine_current h]
  rfl

/-- What `in` does once its destination is known to exist. -/
def inputEffect (s : State) (e : Engine) (dst : Nat) : State :=
  match nextInput s.cfg s.cursor e with
  | (some v, e') =>
    after s { e' with life := .running, inputFailed := false, mem := e.mem.write dst v, ip := e.ip + 2 } .complete
  | (none, e') =>
    match e.straps.starve with
    | .suspend => after s { e' with life := .waitingForInput, inputFailed := true } .suspend
    | .fatal => takeTrap s e inputUnderflow
    | .signal =>
      after s { e' with
        life := .running, inputFailed := true, mem := e.mem.write dst Config.noValue, ip := e.ip + 2 } .stall

/-- Asking the source changes the queue and the count of questions only, whatever the lifecycle. -/
theorem nextInput_start (c : Config) (i : Nat) (e : Engine) :
    nextInput c i (startEngine e) = ((nextInput c i e).1, startEngine (nextInput c i e).2) := by
  unfold nextInput
  simp only [startEngine_straps, startEngine_inq]
  cases e.straps.source
  · cases e.inq <;> rfl
  · rfl

/-- What asking the source can do to the engine. -/
theorem nextInput_engine (c : Config) (i : Nat) (e : Engine) :
    (nextInput c i e).2 = { e with inq := (nextInput c i e).2.inq, draws := (nextInput c i e).2.draws } := by
  unfold nextInput
  cases e.straps.source
  · cases e.inq <;> rfl
  · rfl

theorem exec_inp {s : State} {e : Engine} {d : Mode} (h : s.current = some e) (hd : d.writable = true) :
    exec (.inp d) s =
      match firstIllegal e (.inp d) with
      | some x => .next (takeTrap s e (illegalAddress x))
      | none => .next (inputEffect s e (paramAddress e d 1).toNat) := by
  have hr := resolveO_eq (startEngine e) (.inp d) hd rfl rfl rfl (encode (.inp d))
  rw [accesses_start, resolved_start] at hr
  rw [show exec (.inp d) s = execInp d s from rfl, execInp, onEngine_current h, finish_resolved hr]
  cases hf : firstIllegal e (.inp d) with
  | some x => rfl
  | none =>
    have hm : inMemory e (paramAddress e d 1) = true := output_inMemory (d := d) rfl hf
    simp only [paramAddress_start, nextInput_start, inputEffect]
    have he := nextInput_engine s.cfg s.cursor e
    generalize nextInput s.cfg s.cursor e = r at he ⊢
    obtain ⟨v, e'⟩ := r
    obtain ⟨q, n, rfl⟩ : ∃ q n, e' = { e with inq := q, draws := n } := ⟨_, _, he⟩
    cases v with
    | some v =>
      simp only [deliverInput, bind, Except.bind]
      rw [memWrite_ok (show inMemory (setInputFailed (startEngine { e with inq := q, draws := n }) false) _ = true from hm)]
      rfl
    | none =>
      simp only [starvedInput, startEngine_straps]
      cases e.straps.starve
      · rfl
      · rfl
      · simp only [deliverInput, bind, Except.bind]
        rw [memWrite_ok (show inMemory (setInputFailed (startEngine { e with inq := q, draws := n }) true) _ = true from hm)]
        rfl

theorem exec_out {s : State} {e : Engine} (h : s.current = some e) (a : Mode) :
    exec (.out a) s =
      match firstIllegal e (.out a) with
      | some x => .next (takeTrap s e (illegalAddress x))
      | none =>
        .next ((acceptOutput s { e with
          life := .running
          outLog := e.outLog ++ [operandValue e a 1]
          lastOutput := some (operandValue e a 1)
          ip := e.ip + 2 } (operandValue e a 1)).answer (.output (operandValue e a 1))) := by
  have hr := resolveI_eq (startEngine e) (.out a) rfl rfl rfl
  rw [accesses_start, resolved_start] at hr
  rw [show exec (.out a) s = execOut a s from rfl, execOut]
  simp only [h, hr]
  unfold resolved
  rw [show (accesses e (.out a)).find? (fun x => !inMemory e x) = firstIllegal e (.out a) from rfl]
  cases firstIllegal e (.out a) with
  | some x => rfl
  | none => simp only [operandValue_start]; rfl

/-- An instruction no word decodes to, an output parameter in immediate mode, raises what decode would (log 12). -/
theorem exec_illFormed {s : State} {e : Engine} {i : Instr} (h : s.current = some e) (hi : i.wellFormed = false) :
    exec i s = .next (takeTrap s e (illegalInstruction .immediateOutput (encode i))) := by
  have hd : ∀ d : Mode, d.writable = false → d = .immediate := by intro d; cases d <;> simp [Mode.writable]
  cases i <;> simp only [Instr.wellFormed, reduceCtorEq] at hi <;> cases hd _ hi
  · rw [show ∀ a b, exec (.add a b .immediate) s = execAdd a b .immediate s from fun _ _ => rfl, execAdd,
      onEngine_current h]; rfl
  · rw [show ∀ a b, exec (.mul a b .immediate) s = execMul a b .immediate s from fun _ _ => rfl, execMul,
      onEngine_current h]; rfl
  · rw [show exec (.inp .immediate) s = execInp .immediate s from rfl, execInp, onEngine_current h]; rfl
  · rw [show ∀ a b, exec (.lt a b .immediate) s = execLt a b .immediate s from fun _ _ => rfl, execLt,
      onEngine_current h]; rfl
  · rw [show ∀ a b, exec (.eq a b .immediate) s = execEq a b .immediate s from fun _ _ => rfl, execEq,
      onEngine_current h]; rfl

/-- Without a running engine nothing is executed. -/
theorem exec_noEngine {s : State} (h : s.current = none) (i : Instr) : exec i s = .fault .noEngine := by
  cases i <;> simp [exec, execAdd, execMul, execInp, execOut, execJt, execJf, execLt, execEq, execArb, execHalt,
    onEngine, h]

end Sys2Proof.Machine
end

