-- ==== Sys2Proof/Laws/Cases.lean ====
section
/-!
SUPPORT. Everything a cycle can do, said once: it traps, or it moves its own engine, or it hands a value to its sink.
The invariants are derived from this and unfold no meaning.
-/

namespace Sys2Proof.Machine

/-- What every trap of an engine satisfies: an engine's own cause, and a sub-reason exactly for
`IllegalInstruction`. -/
def TrapOk (t : Trap) : Prop := t.cause ≠ .illegalDestination ∧ (t.cause = .illegalInstruction ↔ t.reason ≠ none)

theorem illegalAddress_ok (a : Int) : TrapOk (illegalAddress a) := by simp [TrapOk, illegalAddress]

theorem overflow_ok (r : Int) : TrapOk (overflow r) := by simp [TrapOk, overflow]

theorem inputUnderflow_ok : TrapOk inputUnderflow := by simp [TrapOk, inputUnderflow]

theorem illegalInstruction_ok (r : IllegalReason) (w : Word) : TrapOk (illegalInstruction r w) := by
  simp [TrapOk, illegalInstruction]

/-- A value an engine can come to hold: in range, or one of the words of R142 and R160, or one it holds already. -/
def Obtainable (c : Config) (e : Engine) (v : Word) : Prop :=
  inRange c v = true ∨ v ∈ e.inq ∨ v = 0 ∨ v = 1 ∨ v = -1 ∨ ∃ a, v = e.mem.read a

/-- What the instruction `i` can do to the engine `e` that runs it when it neither traps nor hands out a value. -/
structure LocalMove (c : Config) (i : Instr) (e e' : Engine) (ev : Event) : Prop where
  straps : e'.straps = e.straps
  cause : e'.faultCause = e.faultCause
  reason : e'.faultReason = e.faultReason
  info : e'.faultInfo = e.faultInfo
  outLog : e'.outLog = e.outLog
  lastOutput : e'.lastOutput = e.lastOutput
  handed : e'.handed = e.handed
  rb : e'.rb = e.rb ∨ ((∃ a, i = .arb a) ∧ inRange c e'.rb = true)
  mem : e'.mem = e.mem ∨ ∃ a v, inMemory e a = true ∧ e'.mem = e.mem.write a.toNat v ∧ Obtainable c e v
  ip : e'.ip = e.ip ∨ e'.ip = e.ip + (lengthOf i : Nat) ∨ ∃ a, e'.ip = e.mem.read a
  inq : e'.inq = e.inq ∨ (e.straps.source = .queue ∧ ∃ v, e.inq = v :: e'.inq)
  event :
    (ev = .complete ∧ e'.life = .running) ∨ (ev = .halt ∧ e'.life = .halted)
      ∨ (ev = .suspend ∧ e'.life = .waitingForInput ∧ e.straps.starve = .suspend ∧ e'.inputFailed = true)
      ∨ (ev = .stall ∧ e'.life = .running ∧ e.straps.starve = .signal)

/-- The engine `out` leaves before its sink is handed the value. -/
def outputEngine (e : Engine) (v : Word) : Engine :=
  { e with life := .running, outLog := e.outLog ++ [v], lastOutput := some v, ip := e.ip + 2 }

/-- How a cycle of `i` by the engine `e` can leave the machine. -/
inductive Ended (s : State) (i : Instr) (e : Engine) : State → Prop where
  | trap (t : Trap) (h : TrapOk t) : Ended s i e (takeTrap s e t)
  | move (e' : Engine) (ev : Event) (h : LocalMove s.cfg i e e' ev) : Ended s i e (after s e' ev)
  | output (v a) (hi : i = .out a) (hv : ∃ n, v = e.mem.read n) :
      Ended s i e ((acceptOutput s (outputEngine e v) v).answer (.output v))

/-- An operand is the content of a cell. -/
theorem operandValue_read (e : Engine) (m : Mode) (k : Nat) : ∃ n, operandValue e m k = e.mem.read n := by
  cases m
  · exact ⟨_, rfl⟩
  · exact ⟨_, rfl⟩
  · exact ⟨_, rfl⟩

/-- A value the source answers with is one of the queue's or in range. -/
theorem nextInput_obtainable {c : Config} {i : Nat} {e e' : Engine} {v : Word} (h : nextInput c i e = (some v, e')) :
    Obtainable c e v := by
  unfold nextInput at h
  split at h
  · split at h
    · simp at h
    · simp only [Prod.mk.injEq, Option.some.injEq] at h
      exact .inr (.inl (by simp_all))
  · simp only [callbackAnswer, Prod.mk.injEq] at h
    split at h
    · split at h
      · exact .inl (by simp_all)
      · simp at h
    · simp at h

/-- What asking the source does to the queue. -/
theorem nextInput_queue {c : Config} {i : Nat} {e e' : Engine} {a : Option Word} (h : nextInput c i e = (a, e')) :
    (e'.inq = e.inq ∧ (e.straps.source = .queue → a = none)) ∨ (e.straps.source = .queue ∧ ∃ v, e.inq = v :: e'.inq) := by
  unfold nextInput at h
  split at h
  · split at h
    · simp only [Prod.mk.injEq] at h
      exact .inl ⟨by rw [← h.2], fun _ => h.1.symm⟩
    · simp only [Prod.mk.injEq] at h
      exact .inr ⟨‹_›, _, by rw [← h.2]; assumption⟩
  · simp only [Prod.mk.injEq] at h
    exact .inl ⟨by rw [← h.2], fun hq => by simp_all⟩

theorem inputEffect_ended {s : State} {e : Engine} {d : Mode} {a : Int} (h : inMemory e a = true) :
    Ended s (.inp d) e (inputEffect s e a.toNat) := by
  unfold inputEffect
  have hen := nextInput_engine s.cfg s.cursor e
  rcases hn : nextInput s.cfg s.cursor e with ⟨v, e'⟩
  have hq := (nextInput_queue hn).imp_left And.left
  rw [hn] at hen
  obtain ⟨q, n, rfl⟩ : ∃ q n, e' = { e with inq := q, draws := n } := ⟨_, _, hen⟩
  cases v with
  | some v =>
    exact .move _ _ ⟨rfl, rfl, rfl, rfl, rfl, rfl, rfl, .inl rfl, .inr ⟨a, v, h, rfl, nextInput_obtainable hn⟩,
      .inr (.inl rfl), hq, .inl ⟨rfl, rfl⟩⟩
  | none =>
    dsimp only
    split
    · exact .move _ _ ⟨rfl, rfl, rfl, rfl, rfl, rfl, rfl, .inl rfl, .inl rfl, .inl rfl, hq,
        .inr (.inr (.inl ⟨rfl, rfl, ‹_›, rfl⟩))⟩
    · exact .trap _ inputUnderflow_ok
    · exact .move _ _ ⟨rfl, rfl, rfl, rfl, rfl, rfl, rfl, .inl rfl,
        .inr ⟨a, _, h, rfl, .inr (.inr (.inr (.inr (.inl rfl))))⟩, .inr (.inl rfl), hq,
        .inr (.inr (.inr ⟨rfl, rfl, ‹_›⟩))⟩

/-- A move that writes one result to memory. -/
theorem compute_move {c : Config} {i : Instr} {e : Engine} {a : Int} {v : Word} (hn : lengthOf i = 4)
    (h : inMemory e a = true) (hv : Obtainable c e v) :
    LocalMove c i e { e with life := .running, mem := e.mem.write a.toNat v, ip := e.ip + 4 } .complete :=
  ⟨rfl, rfl, rfl, rfl, rfl, rfl, rfl, .inl rfl, .inr ⟨a, v, h, rfl, hv⟩, .inr (.inl (by rw [hn]; rfl)), .inl rfl,
    .inl ⟨rfl, rfl⟩⟩

/-- A move of a jump. -/
theorem jump_move {c : Config} {i : Instr} {e : Engine} {p : Prop} [Decidable p] {v : Word} (hn : lengthOf i = 3)
    (hv : ∃ n, v = e.mem.read n) :
    LocalMove c i e { e with life := .running, ip := if p then v else e.ip + 3 } .complete := by
  refine ⟨rfl, rfl, rfl, rfl, rfl, rfl, rfl, .inl rfl, .inl rfl, ?_, .inl rfl, .inl ⟨rfl, rfl⟩⟩
  by_cases hp : p
  · exact .inr (.inr (by simpa [hp] using hv))
  · exact .inr (.inl (by simp [hp, hn]))

theorem truth_obtainable (c : Config) (e : Engine) (p : Prop) [Decidable p] :
    Obtainable c e (if p then 1 else 0) := by
  unfold Obtainable
  split
  · simp
  · simp

theorem exec_add_ended {s : State} {e : Engine} {d : Mode} (h : s.current = some e) (hd : d.writable = true)
    (a b : Mode) : ∃ t, exec (.add a b d) s = .next t ∧ Ended s (.add a b d) e t := by
  rw [exec_add h hd]
  cases hf : firstIllegal e (.add a b d) with
  | some x => exact ⟨_, rfl, .trap _ (illegalAddress_ok x)⟩
  | none =>
    have hm := output_inMemory (d := d) rfl hf
    dsimp only
    split
    · exact ⟨_, rfl, .move _ _ (compute_move rfl hm (.inl ‹_›))⟩
    · exact ⟨_, rfl, .trap _ (overflow_ok _)⟩

theorem exec_mul_ended {s : State} {e : Engine} {d : Mode} (h : s.current = some e) (hd : d.writable = true)
    (a b : Mode) : ∃ t, exec (.mul a b d) s = .next t ∧ Ended s (.mul a b d) e t := by
  rw [exec_mul h hd]
  cases hf : firstIllegal e (.mul a b d) with
  | some x => exact ⟨_, rfl, .trap _ (illegalAddress_ok x)⟩
  | none =>
    have hm := output_inMemory (d := d) rfl hf
    dsimp only
    split
    · exact ⟨_, rfl, .move _ _ (compute_move rfl hm (.inl ‹_›))⟩
    · exact ⟨_, rfl, .trap _ (overflow_ok _)⟩

theorem exec_lt_ended {s : State} {e : Engine} {d : Mode} (h : s.current = some e) (hd : d.writable = true)
    (a b : Mode) : ∃ t, exec (.lt a b d) s = .next t ∧ Ended s (.lt a b d) e t := by
  rw [exec_lt h hd]
  cases hf : firstIllegal e (.lt a b d) with
  | some x => exact ⟨_, rfl, .trap _ (illegalAddress_ok x)⟩
  | none =>
    have hm := output_inMemory (d := d) rfl hf
    exact ⟨_, rfl, .move _ _ (compute_move rfl hm
      (truth_obtainable s.cfg e (operandValue e a 1 < operandValue e b 2)))⟩

theorem exec_eq_ended {s : State} {e : Engine} {d : Mode} (h : s.current = some e) (hd : d.writable = true)
    (a b : Mode) : ∃ t, exec (.eq a b d) s = .next t ∧ Ended s (.eq a b d) e t := by
  rw [exec_eq h hd]
  cases hf : firstIllegal e (.eq a b d) with
  | some x => exact ⟨_, rfl, .trap _ (illegalAddress_ok x)⟩
  | none =>
    have hm := output_inMemory (d := d) rfl hf
    exact ⟨_, rfl, .move _ _ (compute_move rfl hm
      (truth_obtainable s.cfg e (operandValue e a 1 = operandValue e b 2)))⟩

theorem exec_jt_ended {s : State} {e : Engine} (h : s.current = some e) (a b : Mode) :
    ∃ t, exec (.jt a b) s = .next t ∧ Ended s (.jt a b) e t := by
  rw [exec_jt h]
  cases firstIllegal e (.jt a b) with
  | some x => exact ⟨_, rfl, .trap _ (illegalAddress_ok x)⟩
  | none => exact ⟨_, rfl, .move _ _ (jump_move rfl (operandValue_read e b 2))⟩

theorem exec_jf_ended {s : State} {e : Engine} (h : s.current = some e) (a b : Mode) :
    ∃ t, exec (.jf a b) s = .next t ∧ Ended s (.jf a b) e t := by
  rw [exec_jf h]
  cases firstIllegal e (.jf a b) with
  | some x => exact ⟨_, rfl, .trap _ (illegalAddress_ok x)⟩
  | none => exact ⟨_, rfl, .move _ _ (jump_move rfl (operandValue_read e b 2))⟩

theorem exec_inp_ended {s : State} {e : Engine} {d : Mode} (h : s.current = some e) (hd : d.writable = true) :
    ∃ t, exec (.inp d) s = .next t ∧ Ended s (.inp d) e t := by
  rw [exec_inp h hd]
  cases hf : firstIllegal e (.inp d) with
  | some x => exact ⟨_, rfl, .trap _ (illegalAddress_ok x)⟩
  | none => exact ⟨_, rfl, inputEffect_ended (output_inMemory (d := d) rfl hf)⟩

theorem exec_out_ended {s : State} {e : Engine} (h : s.current = some e) (a : Mode) :
    ∃ t, exec (.out a) s = .next t ∧ Ended s (.out a) e t := by
  rw [exec_out h]
  cases firstIllegal e (.out a) with
  | some x => exact ⟨_, rfl, .trap _ (illegalAddress_ok x)⟩
  | none => exact ⟨_, rfl, .output _ a rfl (operandValue_read e a 1)⟩

theorem exec_arb_ended {s : State} {e : Engine} (h : s.current = some e) (a : Mode) :
    ∃ t, exec (.arb a) s = .next t ∧ Ended s (.arb a) e t := by
  rw [exec_arb h]
  cases firstIllegal e (.arb a) with
  | some x => exact ⟨_, rfl, .trap _ (illegalAddress_ok x)⟩
  | none =>
    dsimp only
    split
    · rename_i hr
      refine ⟨_, rfl, .move _ _ ⟨rfl, rfl, rfl, rfl, rfl, rfl, rfl, .inr ⟨⟨a, rfl⟩, hr⟩, .inl rfl, .inr (.inl ?_),
        .inl rfl, .inl ⟨rfl, rfl⟩⟩⟩
      simp [lengthOf, paramCount]
    · exact ⟨_, rfl, .trap _ (overflow_ok _)⟩

theorem exec_halt_ended {s : State} {e : Engine} (h : s.current = some e) :
    ∃ t, exec .halt s = .next t ∧ Ended s .halt e t := by
  rw [exec_halt h]
  refine ⟨_, rfl, .move _ _ ⟨rfl, rfl, rfl, rfl, rfl, rfl, rfl, .inl rfl, .inl rfl, .inr (.inl ?_), .inl rfl,
    .inr (.inl ⟨rfl, rfl⟩)⟩⟩
  simp [lengthOf, paramCount]

/-- Everything an instruction can do when it is executed by the engine `e`. -/
theorem exec_cases {s : State} {e : Engine} (h : s.current = some e) (i : Instr) :
    ∃ t, exec i s = .next t ∧ Ended s i e t := by
  cases hw : i.wellFormed with
  | false => exact ⟨_, exec_illFormed h hw, .trap _ (illegalInstruction_ok _ _)⟩
  | true =>
    cases i with
    | add a b d => exact exec_add_ended h hw a b
    | mul a b d => exact exec_mul_ended h hw a b
    | inp d => exact exec_inp_ended h hw
    | out a => exact exec_out_ended h a
    | jt a b => exact exec_jt_ended h a b
    | jf a b => exact exec_jf_ended h a b
    | lt a b d => exact exec_lt_ended h hw a b
    | eq a b d => exact exec_eq_ended h hw a b
    | arb a => exact exec_arb_ended h a
    | halt => exact exec_halt_ended h

/-! ### Fetch and the cycle -/

/-- Everything fetch and decode can answer. -/
theorem fetchDecode_cases (e : Engine) :
    (inMemory e e.ip = false ∧ fetchDecode e = .error (illegalAddress e.ip))
      ∨ (inMemory e e.ip = true ∧ ∃ r, decode (e.mem.read e.ip.toNat) = .error r
        ∧ fetchDecode e = .error (illegalInstruction r (e.mem.read e.ip.toNat)))
      ∨ (inMemory e e.ip = true ∧ ∃ i, decode (e.mem.read e.ip.toNat) = .ok i ∧ fetchDecode e = .ok i) := by
  unfold fetchDecode
  rw [memRead_bind]
  cases hm : inMemory e e.ip with
  | false => simp
  | true =>
    cases hd : decode (e.mem.read e.ip.toNat) with
    | error r => simp
    | ok i => simp [pure, Except.pure]

theorem isTerminal_iff (e : Engine) : isTerminal e = true ↔ e.life = .halted ∨ e.life = .faulted := by
  simp [isTerminal]

/-- Everything a cycle can do: nothing for a terminal engine, a trap of fetch or decode, or the decoded instruction. -/
theorem cycle_cases {s : State} {e : Engine} (h : s.current = some e) :
    ((e.life = .halted ∨ e.life = .faulted) ∧ cycle s = .next (s.answer .idle))
      ∨ ((e.life ≠ .halted ∧ e.life ≠ .faulted) ∧
        ((∃ t, TrapOk t ∧ cycle s = .next (takeTrap s e t))
          ∨ ∃ i, inMemory e e.ip = true ∧ decode (e.mem.read e.ip.toNat) = .ok i ∧ cycle s = exec i s)) := by
  by_cases ht : e.life = .halted ∨ e.life = .faulted
  · exact .inl ⟨ht, by simp [cycle, h, (isTerminal_iff e).mpr ht]⟩
  · have hnt : isTerminal e = false := by
      rw [← Bool.not_eq_true, isTerminal_iff]
      exact ht
    refine .inr ⟨not_or.mp ht, ?_⟩
    rcases fetchDecode_cases e with ⟨-, hf⟩ | ⟨-, r, -, hf⟩ | ⟨hm, i, hd, hf⟩
    · exact .inl ⟨_, illegalAddress_ok e.ip, by simp [cycle, h, hnt, hf]⟩
    · exact .inl ⟨_, illegalInstruction_ok r (e.mem.read e.ip.toNat), by simp [cycle, h, hnt, hf]⟩
    · exact .inr ⟨i, hm, hd, by simp [cycle, h, hnt, hf]⟩

/-- How a cycle leaves the machine: as it was, or as an instruction that lies where it was fetched leaves it. -/
theorem cycle_ended {s t : State} {e : Engine} (h : s.current = some e) (hc : cycle s = .next t) :
    ((e.life = .halted ∨ e.life = .faulted) ∧ t = s.answer .idle)
      ∨ ((e.life ≠ .halted ∧ e.life ≠ .faulted) ∧ ((∃ tr, TrapOk tr ∧ t = takeTrap s e tr)
        ∨ ∃ i, inMemory e e.ip = true ∧ Ended s i e t)) := by
  rcases cycle_cases h with ⟨ht, hs⟩ | ⟨ht, ⟨tr, hok, hs⟩ | ⟨i, hm, -, hs⟩⟩
  · rw [hs] at hc
    exact .inl ⟨ht, by simpa using hc.symm⟩
  · rw [hs] at hc
    exact .inr ⟨ht, .inl ⟨tr, hok, by simpa using hc.symm⟩⟩
  · obtain ⟨u, hu, hend⟩ := exec_cases h i
    rw [hs, hu] at hc
    cases hc
    exact .inr ⟨ht, .inr ⟨i, hm, hend⟩⟩

/-- A cycle of a machine with a running engine answers a next state. -/
theorem cycle_next {s : State} {e : Engine} (h : s.current = some e) : ∃ t, cycle s = .next t := by
  rcases cycle_cases h with ⟨-, hs⟩ | ⟨-, ⟨tr, -, hs⟩ | ⟨i, -, -, hs⟩⟩
  · exact ⟨_, hs⟩
  · exact ⟨_, hs⟩
  · obtain ⟨t, ht, -⟩ := exec_cases h i
    exact ⟨t, hs.trans ht⟩

theorem cycle_noEngine {s : State} (h : s.current = none) : cycle s = .fault .noEngine := by simp [cycle, h]

/-- A cycle that answers a next state has a running engine. -/
theorem cycle_current {s t : State} (h : cycle s = .next t) : ∃ e, s.current = some e := by
  cases hc : s.current with
  | none => simp [cycle_noEngine hc] at h
  | some e => exact ⟨e, rfl⟩

/-- What a step comes to: a cycle, in the network followed by the scheduler's work, or nothing in a network that has
ended. -/
theorem step_cases {s t : State} (h : step s = .next t) :
    (s.cfg.topology = .single ∧ cycle s = .next t)
      ∨ (s.cfg.topology = .network ∧ s.netState = .running ∧ ∃ u, cycle s = .next u ∧ t = afterCycle u)
      ∨ (s.cfg.topology = .network ∧ s.netState ≠ .running ∧ t = s) := by
  unfold step at h
  split at h
  · exact .inl ⟨‹_›, h⟩
  · unfold networkCycle at h
    split at h
    · refine .inr (.inl ⟨‹_›, ‹_›, ?_⟩)
      split at h
      · rename_i u hu
        exact ⟨u, hu, by simpa using h.symm⟩
      · simp at h
      · simp at h
    · exact .inr (.inr ⟨‹_›, ‹_›, by simpa using h.symm⟩)

end Sys2Proof.Machine
end

