-- ==== Sys2Proof/Laws/Decode.lean ====
section
/-!
SUPPORT. What each part of decode can answer, once: it succeeds with these digits, or fails for this reason.
-/

namespace Sys2Proof

theorem modeDigit_lt (m : Mode) : modeDigit m < 3 := by cases m <;> decide

theorem modeOfDigit_modeDigit (m : Mode) : modeOfDigit (modeDigit m) = some m := by cases m <;> rfl

/-- A digit below 3 is that of a mode. -/
theorem exists_modeDigit {n : Nat} (h : n < 3) : ∃ m, n = modeDigit m := by
  rcases n with _ | _ | _ | n
  · exact ⟨.position, rfl⟩
  · exact ⟨.immediate, rfl⟩
  · exact ⟨.relative, rfl⟩
  · omega

/-- The mode of an input parameter whose digit is that of `m`. -/
theorem inputMode_of_digit {w k : Nat} {m : Mode} (h : digit w (k + 1) = modeDigit m) : inputMode w k = .ok m := by
  simp [inputMode, h, modeOfDigit_modeDigit]

/-- A mode digit of 3 or more is refused. -/
theorem inputMode_bad {w k : Nat} (h : 3 ≤ digit w (k + 1)) : inputMode w k = .error .badModeDigit := by
  unfold inputMode
  rcases hd : digit w (k + 1) with _ | _ | _ | n
  · omega
  · omega
  · omega
  · rfl

theorem outputMode_of_digit {w k : Nat} {m : Mode} (h : digit w (k + 1) = modeDigit m) (hm : m.writable = true) :
    outputMode w k = .ok m := by
  simp [outputMode, inputMode_of_digit h, hm, bind, Except.bind, pure, Except.pure]

theorem outputMode_bad {w k : Nat} (h : 3 ≤ digit w (k + 1)) : outputMode w k = .error .badModeDigit := by
  simp [outputMode, inputMode_bad h, bind, Except.bind]

/-- An output parameter in immediate mode is refused. -/
theorem outputMode_immediate {w k : Nat} (h : digit w (k + 1) = 1) : outputMode w k = .error .immediateOutput := by
  rw [show (1 : Nat) = modeDigit .immediate from rfl] at h
  simp [outputMode, inputMode_of_digit h, Mode.writable, bind, Except.bind]

/-- What `inputMode` can answer. -/
theorem inputMode_cases (w k : Nat) :
    (∃ m, digit w (k + 1) = modeDigit m ∧ inputMode w k = .ok m)
      ∨ (3 ≤ digit w (k + 1) ∧ inputMode w k = .error .badModeDigit) := by
  rcases Nat.lt_or_ge (digit w (k + 1)) 3 with h | h
  · obtain ⟨m, hm⟩ := exists_modeDigit h
    exact .inl ⟨m, hm, inputMode_of_digit hm⟩
  · exact .inr ⟨h, inputMode_bad h⟩

/-- What `outputMode` can answer. -/
theorem outputMode_cases (w k : Nat) :
    (∃ m, digit w (k + 1) = modeDigit m ∧ m.writable = true ∧ outputMode w k = .ok m)
      ∨ (digit w (k + 1) = 1 ∧ outputMode w k = .error .immediateOutput)
      ∨ (3 ≤ digit w (k + 1) ∧ outputMode w k = .error .badModeDigit) := by
  rcases Nat.lt_or_ge (digit w (k + 1)) 3 with h | h
  · obtain ⟨m, hm⟩ := exists_modeDigit h
    cases hw : m.writable
    · have h1 : digit w (k + 1) = 1 := by cases m <;> simp_all [Mode.writable, modeDigit]
      exact .inr (.inl ⟨h1, outputMode_immediate h1⟩)
    · exact .inl ⟨m, hm, hw, outputMode_of_digit hm hw⟩
  · exact .inr (.inr ⟨h, outputMode_bad h⟩)

/-- A mode whose digit is not 1 is writable. -/
theorem writable_of_digit {m : Mode} (h : modeDigit m ≠ 1) : m.writable = true := by
  cases m <;> simp_all [modeDigit, Mode.writable]

theorem decodeIIO_ok {mk : Mode → Mode → Mode → Instr} {w : Nat} {i : Instr} (h : decodeIIO mk w = .ok i) :
    ∃ a b d, digit w 2 = modeDigit a ∧ digit w 3 = modeDigit b ∧ digit w 4 = modeDigit d ∧ d.writable = true
      ∧ w / 10 ^ 5 = 0 ∧ i = mk a b d := by
  rcases inputMode_cases w 1 with ⟨a, ha, ea⟩ | ⟨-, ea⟩ <;> rcases inputMode_cases w 2 with ⟨b, hb, eb⟩ | ⟨-, eb⟩ <;>
    rcases outputMode_cases w 3 with ⟨d, hd, hw, ed⟩ | ⟨-, ed⟩ | ⟨-, ed⟩ <;>
    simp only [decodeIIO, ea, eb, ed, bind, Except.bind, reduceCtorEq] at h
  simp only [noExcess] at h
  split at h
  · exact ⟨a, b, d, ha, hb, hd, hw, ‹_›, by simpa using h.symm⟩
  · simp at h

theorem decodeII_ok {mk : Mode → Mode → Instr} {w : Nat} {i : Instr} (h : decodeII mk w = .ok i) :
    ∃ a b, digit w 2 = modeDigit a ∧ digit w 3 = modeDigit b ∧ w / 10 ^ 4 = 0 ∧ i = mk a b := by
  rcases inputMode_cases w 1 with ⟨a, ha, ea⟩ | ⟨-, ea⟩ <;> rcases inputMode_cases w 2 with ⟨b, hb, eb⟩ | ⟨-, eb⟩ <;>
    simp only [decodeII, ea, eb, bind, Except.bind, reduceCtorEq] at h
  simp only [noExcess] at h
  split at h
  · exact ⟨a, b, ha, hb, ‹_›, by simpa using h.symm⟩
  · simp at h

theorem decodeI_ok {mk : Mode → Instr} {w : Nat} {i : Instr} (h : decodeI mk w = .ok i) :
    ∃ a, digit w 2 = modeDigit a ∧ w / 10 ^ 3 = 0 ∧ i = mk a := by
  rcases inputMode_cases w 1 with ⟨a, ha, ea⟩ | ⟨-, ea⟩ <;>
    simp only [decodeI, ea, bind, Except.bind, reduceCtorEq] at h
  simp only [noExcess] at h
  split at h
  · exact ⟨a, ha, ‹_›, by simpa using h.symm⟩
  · simp at h

theorem decodeO_ok {mk : Mode → Instr} {w : Nat} {i : Instr} (h : decodeO mk w = .ok i) :
    ∃ d, digit w 2 = modeDigit d ∧ d.writable = true ∧ w / 10 ^ 3 = 0 ∧ i = mk d := by
  rcases outputMode_cases w 1 with ⟨d, hd, hw, ed⟩ | ⟨-, ed⟩ | ⟨-, ed⟩ <;>
    simp only [decodeO, ed, bind, Except.bind, reduceCtorEq] at h
  simp only [noExcess] at h
  split at h
  · exact ⟨d, hd, hw, ‹_›, by simpa using h.symm⟩
  · simp at h

/-- The opcode of a word that decodes, and the format it was decoded by. -/
theorem decodeNat_cases {w : Nat} {i : Instr} (h : decodeNat w = .ok i) :
    (w % 100 = 1 ∧ decodeIIO .add w = .ok i) ∨ (w % 100 = 2 ∧ decodeIIO .mul w = .ok i)
      ∨ (w % 100 = 3 ∧ decodeO .inp w = .ok i) ∨ (w % 100 = 4 ∧ decodeI .out w = .ok i)
      ∨ (w % 100 = 5 ∧ decodeII .jt w = .ok i) ∨ (w % 100 = 6 ∧ decodeII .jf w = .ok i)
      ∨ (w % 100 = 7 ∧ decodeIIO .lt w = .ok i) ∨ (w % 100 = 8 ∧ decodeIIO .eq w = .ok i)
      ∨ (w % 100 = 9 ∧ decodeI .arb w = .ok i) ∨ (w % 100 = 99 ∧ noExcess w 0 .halt = .ok i) := by
  unfold decodeNat at h
  split at h <;> simp_all

/-- The digits of a word of at most five digits make it up. -/
theorem digits_sum (w : Nat) (h : w / 10 ^ 5 = 0) :
    w = 10000 * digit w 4 + 1000 * digit w 3 + 100 * digit w 2 + w % 100 := by
  simp only [digit] at *
  omega

/-- What decode answers for a negative word and for any other. -/
theorem decode_negative {w : Word} (h : w < 0) : decode w = .error .negativeWord := by simp [decode, h]

theorem decode_natCast (w : Nat) : decode (w : Int) = decodeNat w := by
  simp [decode]

end Sys2Proof
end

