-- ==== Sys2Proof/Laws/Load.lean ====
section
/-!
SUPPORT. What construction gives: the engines of a network one by one, and that small values are in every legal range.
-/

namespace Sys2Proof.Machine

theorem networkEngines_length (i : Nat) (loads : List (Nat × List Int)) :
    (networkEngines i loads).length = loads.length := by
  induction loads generalizing i with
  | nil => rfl
  | cons l ls ih => simp [networkEngines, ih]

/-- The engine of each capacity and program, with its address as its first input. -/
theorem networkEngines_getElem (i j : Nat) (loads : List (Nat × List Int)) :
    (networkEngines i loads)[j]? =
      loads[j]?.map fun l => Engine.fresh (.network l.1) (.ofList 0 l.2) [((i + j : Nat) : Int)] := by
  induction loads generalizing i j with
  | nil => rfl
  | cons l ls ih =>
    cases j with
    | zero => rfl
    | succ j => simp [networkEngines, ih, Nat.add_assoc, Nat.add_comm 1 j]

/-- A value of at least 64 bits holds every value from -1 to 255: the addresses and the constants of the machine. -/
theorem inRange_of_small {c : Config} (h : legalWidth c = true) {v : Int} (hv : -1 ≤ v) (hv' : v ≤ 255) :
    inRange c v = true := by
  unfold legalWidth at h
  unfold inRange
  cases hx : c.xlen with
  | none => rfl
  | some n =>
    rw [hx] at h
    simp only [decide_eq_true_eq] at h ⊢
    have : (2 : Int) ^ 63 ≤ 2 ^ (n - 1) := pow_le_pow_right₀ (by norm_num) (by omega)
    omega

/-- With a legal capacity every value from -1 up to three cells past the memory is in range. -/
theorem inRange_of_capacity {c : Config} {n : Nat} (h : legalWidth c = true) (hn : legalCapacity c n = true) {v : Int}
    (hv : -1 ≤ v) (hv' : v ≤ n + 3) : inRange c v = true := by
  unfold legalWidth at h
  unfold legalCapacity at hn
  unfold inRange at *
  cases hx : c.xlen with
  | none => rfl
  | some k =>
    simp only [hx, decide_eq_true_eq, Bool.and_eq_true] at h hn ⊢
    have : (2 : Int) ^ 63 ≤ 2 ^ (k - 1) := pow_le_pow_right₀ (by norm_num) (by omega)
    omega

end Sys2Proof.Machine
end

