-- ==== Sys2Proof/Laws/Network.lean ====
section
/-!
SUPPORT. What the router, the monitor and the scheduler can do to the engines: append to their queues and nothing else.
-/

namespace Sys2Proof.Machine

/-- `t` has the engines of `s`, each with values appended to its queue at most, and the same configuration. -/
structure QueuesGrow (s t : State) : Prop where
  cfg : t.cfg = s.cfg
  length : t.eng.length = s.eng.length
  engine : ∀ (j : Nat) (f : Engine), s.eng[j]? = some f → ∃ q, t.eng[j]? = some { f with inq := f.inq ++ q }

theorem QueuesGrow.of_eng {s t : State} (hc : t.cfg = s.cfg) (he : t.eng = s.eng) : QueuesGrow s t :=
  ⟨hc, by rw [he], fun j f hf => ⟨[], by rw [he, hf]; simp⟩⟩

/-- What grows the queues of a machine with the engines of `s` grows those of `s`. -/
theorem QueuesGrow.of_same {s t u : State} (h : QueuesGrow t u) (hc : t.cfg = s.cfg) (he : t.eng = s.eng) :
    QueuesGrow s u :=
  ⟨h.cfg.trans hc, by rw [h.length, he], fun j f hf => h.engine j f (by rw [he, hf])⟩

theorem QueuesGrow.refl (s : State) : QueuesGrow s s := .of_eng rfl rfl

theorem QueuesGrow.trans {s t u : State} (h : QueuesGrow s t) (h' : QueuesGrow t u) : QueuesGrow s u := by
  refine ⟨h'.cfg.trans h.cfg, h'.length.trans h.length, fun j f hf => ?_⟩
  obtain ⟨q, hq⟩ := h.engine j f hf
  obtain ⟨q', hq'⟩ := h'.engine j _ hq
  exact ⟨q ++ q', by simpa [List.append_assoc] using hq'⟩

/-- An engine of the later machine is one of the earlier with a longer queue. -/
theorem QueuesGrow.back {s t : State} (h : QueuesGrow s t) {j : Nat} {f : Engine} (hf : t.eng[j]? = some f) :
    ∃ g q, s.eng[j]? = some g ∧ f = { g with inq := g.inq ++ q } := by
  have hj : j < s.eng.length := h.length ▸ (List.getElem?_eq_some_iff.mp hf).1
  obtain ⟨q, hq⟩ := h.engine j _ (List.getElem?_eq_getElem hj)
  exact ⟨_, q, List.getElem?_eq_getElem hj, Option.some.inj (hf.symm.trans hq)⟩

/-- One queue appended to. -/
theorem enqueue_grows (s : State) (d : Nat) (x y : Word) : QueuesGrow s (enqueue s d x y) := by
  refine ⟨rfl, by simp, fun j f hf => ?_⟩
  by_cases hd : d = j
  · exact ⟨[x, y], by simp [hd, hf]⟩
  · exact ⟨[], by simp [hd, hf]⟩

/-- Appending to the queue of an engine that exists. -/
theorem enqueue_eq {s : State} {d : Nat} {f : Engine} (h : s.eng[d]? = some f) (x y : Word) :
    enqueue s d x y = { s with eng := s.eng.set d { f with inq := f.inq ++ [x, y] } } := by
  obtain ⟨hd, rfl⟩ := List.getElem?_eq_some_iff.mp h
  simp [enqueue, List.modify_eq_set_getElem?, hd]

/-- Everything delivery can do. -/
theorem deliver_cases (s : State) (i : Nat) (d x y : Word) :
    (d = Config.reservedAddr ∧ deliver s i d x y =
        { s with natHeld := some (x, y), netLog := s.netLog ++ [.delivered i d x y] })
      ∨ (d ≠ Config.reservedAddr ∧ 0 ≤ d ∧ d < s.cfg.nEngines ∧ deliver s i d x y =
        enqueue { s with netLog := s.netLog ++ [.delivered i d x y] } d.toNat x y)
      ∨ (d ≠ Config.reservedAddr ∧ (d < 0 ∨ (s.cfg.nEngines : Int) ≤ d) ∧ deliver s i d x y =
        failNetwork s ⟨i, some .illegalDestination, some d⟩) := by
  unfold deliver
  by_cases h1 : d = Config.reservedAddr
  · exact .inl ⟨h1, by simp [h1]⟩
  · by_cases h2 : 0 ≤ d ∧ d < s.cfg.nEngines
    · exact .inr (.inl ⟨h1, h2.1, h2.2, by simp [h1, h2]⟩)
    · refine .inr (.inr ⟨h1, ?_, by simp [h1, h2]⟩)
      rcases lt_or_ge d 0 with hd | hd
      · exact .inl hd
      · exact .inr (le_of_not_gt fun hlt => h2 ⟨hd, hlt⟩)

theorem deliver_grows (s : State) (i : Nat) (d x y : Word) : QueuesGrow s (deliver s i d x y) := by
  rcases deliver_cases s i d x y with ⟨-, h⟩ | ⟨-, -, -, h⟩ | ⟨-, -, h⟩ <;> rw [h]
  · exact .of_eng rfl rfl
  · exact (enqueue_grows _ _ _ _).of_same rfl rfl
  · exact .of_eng rfl rfl

/-- Everything the router can do with a value. -/
theorem route_cases (s : State) (i : Nat) (v : Word) :
    (∃ d x, s.acc.getD i [] = [d, x] ∧ route s i v = deliver { s with acc := s.acc.set i [] } i d x v)
      ∨ ((s.acc.getD i []).length ≠ 2 ∧ route s i v = { s with acc := s.acc.set i (s.acc.getD i [] ++ [v]) }) := by
  unfold route
  generalize s.acc.getD i [] = a
  rcases a with _ | ⟨d, _ | ⟨x, _ | ⟨z, a⟩⟩⟩
  · exact .inr ⟨by simp, rfl⟩
  · exact .inr ⟨by simp, rfl⟩
  · exact .inl ⟨d, x, rfl, rfl⟩
  · refine .inr ⟨by simp, ?_⟩
    cases a <;> simp

theorem route_grows (s : State) (i : Nat) (v : Word) : QueuesGrow s (route s i v) := by
  rcases route_cases s i v with ⟨d, x, -, h⟩ | ⟨-, h⟩ <;> rw [h]
  · exact (deliver_grows _ _ _ _ _).of_same rfl rfl
  · exact .of_eng rfl rfl

/-- Everything the sink can do with a value: keep it, hand it to the host, or route it. -/
theorem acceptOutput_cases (s : State) (e : Engine) (v : Word) :
    (e.straps.sink = .record ∧ acceptOutput s e v = s.setCurrent e)
      ∨ (e.straps.sink = .callback ∧ s.cfg.topology = .single
        ∧ acceptOutput s e v = s.setCurrent { e with handed := e.handed ++ [v] })
      ∨ (e.straps.sink = .callback ∧ s.cfg.topology = .network
        ∧ acceptOutput s e v = route (s.setCurrent e) s.cursor v) := by
  unfold acceptOutput
  cases h : e.straps.sink
  · exact .inl ⟨rfl, rfl⟩
  · cases h' : s.cfg.topology
    · exact .inr (.inl ⟨rfl, rfl, rfl⟩)
    · exact .inr (.inr ⟨rfl, rfl, rfl⟩)

/-- Everything the end of a pass can do. -/
theorem endOfPass_cases (s : State) :
    endOfPass s = s
      ∨ (∃ x y, idle s = true ∧ s.natHeld = some (x, y) ∧ s.natLastY = some y ∧ endOfPass s = terminate s y)
      ∨ ∃ x y, idle s = true ∧ s.natHeld = some (x, y) ∧ s.natLastY ≠ some y ∧ endOfPass s = reinject s x y := by
  unfold endOfPass
  cases hi : idle s
  · exact .inl rfl
  · rcases hh : s.natHeld with _ | ⟨x, y⟩
    · exact .inl rfl
    · by_cases hy : s.natLastY = some y
      · exact .inr (.inl ⟨x, y, rfl, rfl, hy, by simp [hy]⟩)
      · exact .inr (.inr ⟨x, y, rfl, rfl, hy, by simp [hy]⟩)

theorem reinject_grows (s : State) (x y : Word) : QueuesGrow s (reinject s x y) :=
  (enqueue_grows _ _ _ _).of_same rfl rfl

theorem endOfPass_grows (s : State) : QueuesGrow s (endOfPass s) := by
  rcases endOfPass_cases s with h | ⟨x, y, -, -, -, h⟩ | ⟨x, y, -, -, -, h⟩ <;> rw [h]
  · exact .refl s
  · exact .of_eng rfl rfl
  · exact reinject_grows s x y

/-- Everything the scheduler can do after a cycle: nothing, stop the network at a fault, or move the cursor on. -/
theorem afterCycle_cases (s : State) :
    afterCycle s = s
      ∨ (s.reply = some .fault ∧ ∃ e, s.current = some e
        ∧ afterCycle s = failNetwork s ⟨s.cursor, e.faultCause, e.faultInfo⟩)
      ∨ (s.netState = .running ∧ s.reply ≠ some .fault ∧ s.cursor + 1 ≠ s.cfg.nEngines
        ∧ afterCycle s = { s with cursor := s.cursor + 1 })
      ∨ (s.netState = .running ∧ s.reply ≠ some .fault ∧ s.cursor + 1 = s.cfg.nEngines
        ∧ afterCycle s = endOfPass { s with cursor := 0 }) := by
  unfold afterCycle endVisit
  split
  · exact .inl rfl
  · rename_i ev hne hev
    split_ifs with h1 h2
    · unfold abortNetwork
      cases hc : s.current with
      | none => exact .inl rfl
      | some e => exact .inr (.inl ⟨by rw [hev, h1], e, rfl, rfl⟩)
    · unfold nextEngine
      split_ifs with h3
      · exact .inr (.inr (.inr ⟨h2, by simp [hev, h1], h3, rfl⟩))
      · exact .inr (.inr (.inl ⟨h2, by simp [hev, h1], h3, rfl⟩))
    · exact .inl rfl
  · exact .inl rfl

theorem afterCycle_grows (s : State) : QueuesGrow s (afterCycle s) := by
  rcases afterCycle_cases s with h | ⟨-, e, -, h⟩ | ⟨-, -, -, h⟩ | ⟨-, -, -, h⟩ <;> rw [h]
  · exact .refl s
  · exact .of_eng rfl rfl
  · exact .of_eng rfl rfl
  · exact (endOfPass_grows _).of_same rfl rfl

/-- The scheduler leaves the event of the cycle in place. -/
theorem afterCycle_reply (s : State) : (afterCycle s).reply = s.reply := by
  rcases afterCycle_cases s with h | ⟨-, e, -, h⟩ | ⟨-, -, -, h⟩ | ⟨-, -, -, h⟩ <;> rw [h]
  · rfl
  · rcases endOfPass_cases { s with cursor := 0 } with h' | ⟨x, y, -, -, -, h'⟩ | ⟨x, y, -, -, -, h'⟩ <;> rw [h'] <;> rfl

/-- Everything a cycle of the engine `e` can do to `e`, and its event: it traps, or it runs an instruction that concerns
the engine alone, or it hands out a value. -/
inductive EngineMove (c : Config) (e : Engine) : Engine → Event → Prop where
  | trap (tr : Trap) (h : TrapOk tr) : EngineMove c e (raise e tr) .fault
  | move (i : Instr) (e' : Engine) (ev : Event) (hm : inMemory e e.ip = true) (h : LocalMove c i e e' ev) :
      EngineMove c e e' ev
  | output (v : Word) (hm : inMemory e e.ip = true) (hv : ∃ n, v = e.mem.read n) :
      EngineMove c e (outputEngine e v) (.output v)
  | handed (v : Word) (hm : inMemory e e.ip = true) (hv : ∃ n, v = e.mem.read n) :
      EngineMove c e { outputEngine e v with handed := e.handed ++ [v] } (.output v)

/-- What a cycle leaves of the machine: the engine it leaves, and the queues longer at most. -/
theorem Ended.engine {s t : State} {i : Instr} {e : Engine} (hm : inMemory e e.ip = true) (hend : Ended s i e t) :
    ∃ e' ev, QueuesGrow (s.setCurrent e') t ∧ t.cursor = s.cursor ∧ t.reply = some ev ∧ EngineMove s.cfg e e' ev := by
  cases hend with
  | trap tr hok => exact ⟨_, _, .of_eng rfl rfl, rfl, rfl, .trap tr hok⟩
  | move e' ev h => exact ⟨e', ev, .of_eng rfl rfl, rfl, rfl, .move i e' ev hm h⟩
  | output v w _ hv =>
    rcases acceptOutput_cases s (outputEngine e v) v with ⟨-, ha⟩ | ⟨-, -, ha⟩ | ⟨-, -, ha⟩ <;> rw [ha]
    · exact ⟨_, _, .of_eng rfl rfl, rfl, rfl, .output v hm hv⟩
    · exact ⟨_, _, .of_eng rfl rfl, rfl, rfl, .handed v hm hv⟩
    · refine ⟨_, _, (route_grows _ _ _).trans (.of_eng rfl rfl), ?_, rfl, .output v hm hv⟩
      rcases route_cases (s.setCurrent (outputEngine e v)) s.cursor v with ⟨d, x, -, hr⟩ | ⟨-, hr⟩ <;> rw [hr]
      · rcases deliver_cases { s.setCurrent (outputEngine e v) with
            acc := (s.setCurrent (outputEngine e v)).acc.set s.cursor [] } s.cursor d x v with
          ⟨-, hd⟩ | ⟨-, -, -, hd⟩ | ⟨-, -, hd⟩ <;> rw [hd] <;> rfl
      · rfl

/-- Everything a cycle can do to the engines. -/
theorem cycle_engine {s t : State} {e : Engine} (h : s.current = some e) (hc : cycle s = .next t) :
    ((e.life = .halted ∨ e.life = .faulted) ∧ t = s.answer .idle)
      ∨ ((e.life ≠ .halted ∧ e.life ≠ .faulted) ∧ ∃ e' ev, QueuesGrow (s.setCurrent e') t ∧ t.cursor = s.cursor
        ∧ t.reply = some ev ∧ EngineMove s.cfg e e' ev) := by
  rcases cycle_ended h hc with h' | ⟨hn, ⟨tr, hok, rfl⟩ | ⟨i, hm, hend⟩⟩
  · exact .inl h'
  · exact .inr ⟨hn, _, _, .of_eng rfl rfl, rfl, rfl, .trap tr hok⟩
  · exact .inr ⟨hn, hend.engine hm⟩

/-- A cycle leaves the configuration. -/
theorem cycle_cfg {s t : State} (h : cycle s = .next t) : t.cfg = s.cfg := by
  obtain ⟨e, he⟩ := cycle_current h
  rcases cycle_engine he h with ⟨-, rfl⟩ | ⟨-, e', ev, hg, -⟩
  · rfl
  · exact hg.cfg

/-- A cycle answers with an event. -/
theorem cycle_reply {s t : State} (h : cycle s = .next t) : ∃ ev, t.reply = some ev := by
  obtain ⟨e, he⟩ := cycle_current h
  rcases cycle_engine he h with ⟨-, rfl⟩ | ⟨-, e', ev, hg, -, hr, -⟩
  · exact ⟨_, rfl⟩
  · exact ⟨ev, hr⟩

/-- One more step of a run. -/
theorem run_succ (n : Nat) (s : State) :
    core.run (n + 1) s =
      match step s with
      | .next t => core.run n t
      | .fault r => .fault r
      | .refused r => .refused r := by
  have h : core.step s = step s := rfl
  cases hs : step s <;> simp [Host.Core.run, h, hs]

/-- Everything a step can do to the engines: longer queues at most, and beside that a move of the running engine if it
is not terminal. -/
theorem step_engine {s t : State} (h : step s = .next t) :
    QueuesGrow s t
      ∨ ∃ e e' ev, s.current = some e ∧ e.life ≠ .halted ∧ e.life ≠ .faulted ∧ QueuesGrow (s.setCurrent e') t
        ∧ t.reply = some ev ∧ EngineMove s.cfg e e' ev := by
  rcases step_cases h with ⟨-, hc⟩ | ⟨-, -, u, hc, rfl⟩ | ⟨-, -, rfl⟩
  · obtain ⟨e, he⟩ := cycle_current hc
    rcases cycle_engine he hc with ⟨-, rfl⟩ | ⟨hn, e', ev, hg, -, hr, hm⟩
    · exact .inl (.of_eng rfl rfl)
    · exact .inr ⟨e, e', ev, he, hn.1, hn.2, hg, hr, hm⟩
  · obtain ⟨e, he⟩ := cycle_current hc
    rcases cycle_engine he hc with ⟨-, rfl⟩ | ⟨hn, e', ev, hg, -, hr, hm⟩
    · exact .inl ((afterCycle_grows _).of_same rfl rfl)
    · exact .inr ⟨e, e', ev, he, hn.1, hn.2, hg.trans (afterCycle_grows u), by rw [afterCycle_reply, hr], hm⟩
  · exact .inl (.refl _)

/-- The engine `cursor` names is one of the machine's. -/
theorem cursor_lt {s : State} {e : Engine} (h : s.current = some e) : s.cursor < s.eng.length :=
  (List.getElem?_eq_some_iff.mp h).1

/-- The engines after one of them was replaced. -/
theorem setCurrent_getElem {s : State} {e : Engine} (h : s.current = some e) (e' : Engine) (j : Nat) :
    (s.setCurrent e').eng[j]? = if j = s.cursor then some e' else s.eng[j]? := by
  by_cases hj : j = s.cursor
  · simp [State.setCurrent, hj, cursor_lt h]
  · simp [State.setCurrent, hj, List.getElem?_set_ne (Ne.symm hj)]

/-- What a step leaves of each engine: a longer queue at most, beside a move of the running engine. -/
theorem step_engine_at {s t : State} {j : Nat} {f : Engine} (h : step s = .next t) (hf : s.eng[j]? = some f) :
    ∃ g q, t.eng[j]? = some { g with inq := g.inq ++ q }
      ∧ (g = f ∨ (j = s.cursor ∧ f.life ≠ .halted ∧ f.life ≠ .faulted
        ∧ ∃ ev, t.reply = some ev ∧ EngineMove s.cfg f g ev)) := by
  rcases step_engine h with hg | ⟨e, e', ev, he, h1, h2, hg, hr, hm⟩
  · obtain ⟨q, hq⟩ := hg.engine j f hf
    exact ⟨f, q, hq, .inl rfl⟩
  · by_cases hj : j = s.cursor
    · subst hj
      obtain rfl : e = f := Option.some.inj (he.symm.trans hf)
      obtain ⟨q, hq⟩ := hg.engine s.cursor e' (by rw [setCurrent_getElem he, if_pos rfl])
      exact ⟨e', q, hq, .inr ⟨rfl, h1, h2, ev, hr, hm⟩⟩
    · obtain ⟨q, hq⟩ := hg.engine j f (by rw [setCurrent_getElem he, if_neg hj, hf])
      exact ⟨f, q, hq, .inl rfl⟩

/-- Every engine after a step comes from one before it. -/
theorem step_engine_of {s t : State} {j : Nat} {f' : Engine} (h : step s = .next t) (hf : t.eng[j]? = some f') :
    ∃ f g q, s.eng[j]? = some f ∧ f' = { g with inq := g.inq ++ q }
      ∧ (g = f ∨ (j = s.cursor ∧ f.life ≠ .halted ∧ f.life ≠ .faulted
        ∧ ∃ ev, t.reply = some ev ∧ EngineMove s.cfg f g ev)) := by
  have hlen : t.eng.length = s.eng.length := by
    rcases step_engine h with hg | ⟨e, e', ev, he, -, -, hg, -, -⟩
    · exact hg.length
    · simpa [State.setCurrent] using hg.length
  have hj : j < s.eng.length := hlen ▸ (List.getElem?_eq_some_iff.mp hf).1
  obtain ⟨g, q, hq, hm⟩ := step_engine_at h (List.getElem?_eq_getElem hj)
  exact ⟨_, g, q, List.getElem?_eq_getElem hj, Option.some.inj (hf.symm.trans hq), hm⟩

end Sys2Proof.Machine
end

