-- ==== Sys2Proof/Laws/PerInstr.lean ====
section
/-!
SUPPORT. The family `EncodedWord`: what the instruction word of an instruction is made of (spec/30_encoding.md R80, R82,
R89).
-/

namespace Sys2Proof.Laws.EncodedWord

/-- The word has the opcode in its two low digits, is not negative, and has no digit above the mode digits of the
parameters. -/
def Statement (i : Instr) : Prop :=
  0 ≤ encode i ∧ (encode i).toNat % 100 = opcodeOf i ∧ (encode i).toNat / 10 ^ (paramCount i + 2) = 0

theorem add (a b d : Mode) : Statement (.add a b d) := by cases a <;> cases b <;> cases d <;> exact ⟨by decide, rfl, rfl⟩

theorem mul (a b d : Mode) : Statement (.mul a b d) := by cases a <;> cases b <;> cases d <;> exact ⟨by decide, rfl, rfl⟩

theorem inp (d : Mode) : Statement (.inp d) := by cases d <;> exact ⟨by decide, rfl, rfl⟩

theorem out (a : Mode) : Statement (.out a) := by cases a <;> exact ⟨by decide, rfl, rfl⟩

theorem jt (a b : Mode) : Statement (.jt a b) := by cases a <;> cases b <;> exact ⟨by decide, rfl, rfl⟩

theorem jf (a b : Mode) : Statement (.jf a b) := by cases a <;> cases b <;> exact ⟨by decide, rfl, rfl⟩

theorem lt (a b d : Mode) : Statement (.lt a b d) := by cases a <;> cases b <;> cases d <;> exact ⟨by decide, rfl, rfl⟩

theorem eq (a b d : Mode) : Statement (.eq a b d) := by cases a <;> cases b <;> cases d <;> exact ⟨by decide, rfl, rfl⟩

theorem arb (a : Mode) : Statement (.arb a) := by cases a <;> exact ⟨by decide, rfl, rfl⟩

theorem halt : Statement .halt := ⟨by decide, rfl, rfl⟩

end Sys2Proof.Laws.EncodedWord
end

