-- ==== Sys2Proof/Machine/Assembler.lean ====
section
/-!
DEFINITION. The assembler notation of the spec (spec/30_encoding.md R96): the cells a text denotes. `none` where the text
is none of it (log 25). No instruction and no host operation uses it.
-/

namespace Sys2Proof.Machine

/-- A decimal integer with or without a sign. -/
def readSigned (cs : List Char) : Option Int :=
  match trim cs with
  | '+' :: ds => (readNumber ds).map fun n => (n : Int)
  | ds => readItem ds

/-- A list without its last character, which must be the given one. -/
def closedBy (ch : Char) : List Char → Option (List Char)
  | [] => none
  | [c] => if c = ch then some [] else none
  | c :: d :: cs => (closedBy ch (d :: cs)).map (c :: ·)

/-- What stands between the brackets: `v`, `rb+v` or `rb-v`. -/
def readAddress (cs : List Char) : Option (Mode × Int) :=
  match trim cs with
  | 'r' :: 'b' :: ds =>
    match dropBlanks ds with
    | '+' :: v => (readSigned v).map fun n => (.relative, n)
    | '-' :: v => (readSigned v).map fun n => (.relative, -n)
    | _ => none
  | ds => (readSigned ds).map fun n => (.position, n)

/-- An operand: its mode and its parameter word. -/
def readOperand (cs : List Char) : Option (Mode × Int) :=
  match trim cs with
  | '#' :: v => (readSigned v).map fun n => (.immediate, n)
  | '[' :: ds => do
    let inside ← closedBy ']' ds
    readAddress inside
  | _ => none

/-- The operands of a line. -/
def readOperands : List (List Char) → Option (List (Mode × Int))
  | [] => some []
  | item :: items => do
    let o ← readOperand item
    let os ← readOperands items
    pure (o :: os)

/-- The instruction a mnemonic (R80) and the modes of its operands, in the order of R83, name. -/
def instrOf (mnemonic : List Char) (modes : List Mode) : Option Instr :=
  match mnemonic, modes with
  | ['a', 'd', 'd'], [a, b, d] => some (.add a b d)
  | ['m', 'u', 'l'], [a, b, d] => some (.mul a b d)
  | ['i', 'n'], [d] => some (.inp d)
  | ['o', 'u', 't'], [a] => some (.out a)
  | ['j', 't'], [a, b] => some (.jt a b)
  | ['j', 'f'], [a, b] => some (.jf a b)
  | ['l', 't'], [a, b, d] => some (.lt a b d)
  | ['e', 'q'], [a, b, d] => some (.eq a b d)
  | ['a', 'r', 'b'], [a] => some (.arb a)
  | ['h', 'a', 'l', 't'], [] => some .halt
  | _, _ => none

/-- The cells of a statement: the values of `.word`, or the instruction word and the parameter words. -/
def assembleStatement (mnemonic rest : List Char) : Option (List Int) :=
  if mnemonic = ['.', 'w', 'o', 'r', 'd'] then (splitItems rest).mapM readSigned
  else do
    let os ← if trim rest = [] then pure [] else readOperands (splitItems rest)
    let i ← instrOf mnemonic (os.map Prod.fst)
    if i.wellFormed then pure (encode i :: os.map Prod.snd) else none

/-- A list without a comment. -/
def dropComment (cs : List Char) : List Char := cs.takeWhile fun ch => ch ≠ ';'

/-- A list without the address and the colon before it, if they stand there. -/
def dropAddress (cs : List Char) : Option (List Char) :=
  match splitBy ':' cs with
  | [body] => some body
  | [address, body] => (readNumber (trim address)).map fun _ => body
  | _ => none

/-- The cells of one line: none for a line of blanks. -/
def assembleLine (line : List Char) : Option (List Int) := do
  let body ← dropAddress (dropComment line)
  let cs := trim body
  if cs = [] then pure []
  else assembleStatement (cs.takeWhile fun ch => !isBlank ch) (cs.dropWhile fun ch => !isBlank ch)

/-- The cells of lines, in order. -/
def assembleLines : List (List Char) → Option (List Int)
  | [] => some []
  | line :: lines => do
    let cells ← assembleLine line
    let more ← assembleLines lines
    pure (cells ++ more)

/-- The program a text denotes. -/
def assemble (text : List Char) : Option (List Int) := assembleLines (splitBy '\n' text)

end Sys2Proof.Machine
end

