-- ==== Sys2Proof/Tests/Slice0.lean ====
section
/-!
SUPPORT. Tests. Every expected value is from spec/95_test_vectors.md or worked out by hand from the rules. After them, for
every obligation with hypotheses, a concrete case that meets them.
-/

namespace Sys2Proof.Tests

open Sys2Proof.Machine

/-! ### Small machines -/

/-- A fresh engine of 64 cells. -/
def engine (starve : StarvePolicy) (program inq : List Int) : Engine :=
  .fresh { Straps.default with starve := starve, capacity := 64 } (.ofList 0 program) inq

/-- A single-engine machine of the default width. -/
def bench (e : Engine) : State := .fresh .default [e] []

/-- A fresh single engine with a program and no input, `FATAL`. -/
def machine (program : List Int) : State := bench (engine .fatal program [])

/-- A network of two engines of 128 cells (spec/95_test_vectors.md section 4). -/
def pair (p0 p1 : List Int) : State :=
  .fresh ⟨.network, some 64, 2⟩
    [.fresh (.network 128) (.ofList 0 p0) [0], .fresh (.network 128) (.ofList 0 p1) [1]] [[], []]

/-- The machine a step leaves. -/
def ran (o : Host.Outcome State Fault Refusal) : Option State :=
  match o with
  | .next t => some t
  | .fault _ => none
  | .refused _ => none

/-- What a test looks at of the engine that ran. -/
def look {α : Type} (f : Engine → α) (o : Host.Outcome State Fault Refusal) : Option α :=
  match ran o with
  | some t => t.current.map f
  | none => none

/-- The registers a fault leaves. -/
def fault (e : Engine) : Lifecycle × Option FaultCause × Option IllegalReason × Option Int × Int :=
  (e.life, e.faultCause, e.faultReason, e.faultInfo, e.ip)

/-! ### WellFormed -/

theorem test_wellFormed_refuses_add : (Instr.add .position .position .immediate).wellFormed = false := by decide

theorem test_wellFormed_refuses_mul : (Instr.mul .position .relative .immediate).wellFormed = false := by decide

theorem test_wellFormed_refuses_inp : (Instr.inp .immediate).wellFormed = false := by decide

theorem test_wellFormed_refuses_lt : (Instr.lt .immediate .immediate .immediate).wellFormed = false := by decide

theorem test_wellFormed_refuses_eq : (Instr.eq .relative .position .immediate).wellFormed = false := by decide

theorem test_wellFormed_accepts : (Instr.add .immediate .immediate .relative).wellFormed = true := by decide

/-! ### Decode and encode (spec/95_test_vectors.md section 2.1)

The words are written from the patterns of spec/30_encoding.md R86: `C B A op` in decimal. -/

theorem test_decode_add : decode 1101 = .ok (.add .immediate .immediate .position) := by decide

theorem test_decode_add_relative : decode 21201 = .ok (.add .relative .immediate .relative) := by decide

theorem test_decode_mul : decode 20202 = .ok (.mul .relative .position .relative) := by decide

theorem test_decode_inp : decode 203 = .ok (.inp .relative) := by decide

theorem test_decode_out : decode 104 = .ok (.out .immediate) := by decide

theorem test_decode_jt : decode 2105 = .ok (.jt .immediate .relative) := by decide

theorem test_decode_jf : decode 1006 = .ok (.jf .position .immediate) := by decide

theorem test_decode_lt : decode 2207 = .ok (.lt .relative .relative .position) := by decide

theorem test_decode_eq : decode 21008 = .ok (.eq .position .immediate .relative) := by decide

theorem test_decode_arb : decode 209 = .ok (.arb .relative) := by decide

theorem test_decode_halt : decode 99 = .ok .halt := by decide

theorem test_decode_negative : decode (-1101) = .error .negativeWord := by decide

theorem test_decode_unknown : decode 1000000 = .error .unknownOpcode := by decide

theorem test_decode_badDigit : decode 30001 = .error .badModeDigit := by decide

/-- An excess digit stands above the immediate output digit; the mode check comes first. -/
theorem test_decode_immediateOutput : decode 11103 = .error .immediateOutput := by decide

theorem test_decode_excess : decode 10099 = .error .excessDigits := by decide

theorem test_encode_eq : encode (.eq .position .immediate .relative) = 21008 := by decide

theorem test_encode_jt : encode (.jt .immediate .relative) = 2105 := by decide

/-- The first cell is the least significant 64 bits; what lies above plays no part (log 4). -/
theorem test_decodeTableWord : decodeTableWord 256 (99 + 2 ^ 64 * 7) = some .halt := by decide

theorem test_cell_negative : cellOfBits (2 ^ 64 - 1) 0 = -1 := by decide

/-! ### One step of each instruction (spec/95_test_vectors.md sections 1 and 2) -/

theorem test_add_immediate :
    look (fun e => (e.mem.read 0, e.ip, e.life)) (step (machine [1101, 3, 4, 0, 99])) = some (7, 4, .running) := by
  decide

theorem test_add_overflow :
    look fault (step (machine [1101, 9223372036854775807, 1, 5, 99, 7]))
      = some (.faulted, some .overflow, none, some 9223372036854775808, 0) := by decide

theorem test_mul_modes : look (fun e => (e.mem.read 4, e.ip)) (step (machine [1002, 4, 3, 4, 33])) = some (99, 4) := by
  decide

theorem test_mul_overflow :
    look fault (step (machine [1102, -9223372036854775808, -1, 5, 99, 7]))
      = some (.faulted, some .overflow, none, some 9223372036854775808, 0) := by decide

theorem test_lt_signed :
    look (fun e => (e.mem.read 5, e.ip)) (step (machine [1107, -9223372036854775808, 9223372036854775807, 5, 99, 7]))
      = some (1, 4) := by decide

theorem test_lt_equal : look (fun e => e.mem.read 5) (step (machine [1107, -3, -3, 5, 99, 7])) = some 0 := by decide

theorem test_eq_equal : look (fun e => e.mem.read 5) (step (machine [1108, -3, -3, 5, 99, 7])) = some 1 := by decide

theorem test_eq_unequal : look (fun e => e.mem.read 5) (step (machine [1108, -1, 0, 5, 99, 7])) = some 0 := by decide

/-- A taken jump to no address completes. -/
theorem test_jt_taken : look (fun e => (e.ip, e.life)) (step (machine [1105, 1, -5])) = some (-5, .running) := by decide

theorem test_jt_not_taken : look (fun e => e.ip) (step (machine [1105, 0, 999999999, 99])) = some 3 := by decide

theorem test_jf_taken : look (fun e => e.ip) (step (machine [1106, 0, 36])) = some 36 := by decide

/-- The target is read though the jump is not taken. -/
theorem test_jf_eager :
    look fault (step (machine [6, 1, 64, 99])) = some (.faulted, some .illegalAddress, none, some 64, 0) := by decide

/-- The destination is the instruction's own word. -/
theorem test_inp_delivers :
    look (fun e => (e.mem.read 0, e.ip, e.inq, e.inputFailed)) (step (bench (engine .fatal [3, 0, 99] [99])))
      = some (99, 2, [], false) := by decide

theorem test_inp_suspends :
    look (fun e => (e.life, e.ip, e.inputFailed, e.mem.read 5)) (step (bench (engine .suspend [3, 5, 4, 5, 99] [])))
      = some (.waitingForInput, 0, true, 0) := by decide

theorem test_out_records :
    look (fun e => (e.outLog, e.lastOutput, e.ip)) (step (machine [104, -7, 99])) = some ([-7], some (-7), 2) := by
  decide

/-- The third value of the triple (7, 1, 2): 7 is no engine of two (network N3). -/
theorem test_out_illegal_destination :
    (ran (step { pair [104, 2, 99] [99] with acc := [[7, 1], []] })).map (fun t => (t.netState, t.netFault, t.acc))
      = some (.faulted, some ⟨0, some .illegalDestination, some 7⟩, [[], []]) := by decide

theorem test_arb_negative : look (fun e => (e.rb, e.ip)) (step (machine [109, -3, 204, 3, 99])) = some (-3, 2) := by
  decide

/-- The operand is read with the old base (program P2, cycle 4). -/
theorem test_arb_relative :
    look (fun e => e.rb)
      (step (bench { engine .fatal [209, 1] [] with rb := 30, mem := (Memory.ofList 0 [209, 1]).write 31 12 }))
      = some 42 := by decide

theorem test_halt : look (fun e => (e.life, e.ip)) (step (machine [99])) = some (.halted, 1) := by decide

/-- Nothing is fetched after the halt in the last cell. -/
theorem test_halt_last_cell :
    look (fun e => (e.life, e.ip)) (step (bench { engine .fatal [] [] with ip := 63, mem := [(63, 99)] }))
      = some (.halted, 64) := by decide

/-! ### Fetch, the queue, the network, construction -/

theorem test_fetch_outside :
    look fault (step (bench { engine .fatal [] [] with ip := -5 }))
      = some (.faulted, some .illegalAddress, none, some (-5), -5) := by decide

theorem test_empty_program :
    look fault (step (machine [])) = some (.faulted, some .illegalInstruction, some .unknownOpcode, some 0, 0) := by
  decide

theorem test_parameter_outside :
    look fault (step (bench { engine .fatal [] [] with ip := 62, mem := [(62, 1)] }))
      = some (.faulted, some .illegalAddress, none, some 64, 62) := by decide

theorem test_output_outside :
    look fault (step (machine [1, 0, 0, -1, 99])) = some (.faulted, some .illegalAddress, none, some (-1), 0) := by decide

/-- A faulting `in` keeps the queue. -/
theorem test_inp_outside :
    look (fun e => (e.life, e.inq)) (step (bench (engine .fatal [3, -1, 99] [5]))) = some (.faulted, [5]) := by decide

theorem test_inp_immediate :
    look fault (step (bench (engine .fatal [103, 0, 99] [5])))
      = some (.faulted, some .illegalInstruction, some .immediateOutput, some 103, 0) := by decide

theorem test_inp_fatal :
    look fault (step (machine [3, 5, 4, 5, 99])) = some (.faulted, some .inputUnderflow, none, none, 0) := by decide

theorem test_inp_signal :
    look (fun e => (e.mem.read 5, e.ip, e.inputFailed)) (step (bench (engine .signal [3, 5, 4, 5, 99] [])))
      = some (-1, 2, true) := by decide

/-- A triple for engine 1: `x` before `y` at the back of its queue. -/
theorem test_route_to_engine :
    (route { pair [] [] with acc := [[1, 11], []] } 0 22).eng.map (fun e => e.inq) = [[0], [1, 11, 22]] := by decide

/-- Network N1, the end of pass 5: the same `y` again. -/
theorem test_monitor_ends :
    let s := pair [] []
    let t := endOfPass { s with
      eng := s.eng.map (fun e => { e with inq := [], inputFailed := true }), natHeld := some (7, 9), natLastY := some 9 }
    (t.netState, t.netAnswer) = (.terminated, some 9) := by decide

/-- Network N1, the end of pass 4: the packet to engine 0. -/
theorem test_monitor_reinjects :
    let s := pair [] []
    let t := endOfPass { s with
      eng := s.eng.map (fun e => { e with inq := [], inputFailed := true }), natHeld := some (7, 9) }
    (t.eng.map (fun e => e.inq), t.natLastY, t.natHeld) = ([[7, 9], []], some 9, some (7, 9)) := by decide

/-- Program P4: `RUN` ends at the suspended `in`. -/
theorem test_run_suspends :
    (drive .run 5 (bench (engine .suspend [3, 20] []))).map (fun t => t.reply) = some (some .suspend) := by decide

theorem test_push :
    (hostPush (bench (engine .suspend [] [1])) 42).map (fun t => t.eng.map (fun e => e.inq)) = some [[1, 42]] := by decide

theorem test_parse : parseProgram ['1', ',', ' ', '-', '2', '0', '\n'] = some [1, -20] := by decide

theorem test_parse_refuses : parseProgram ['1', ',', ',', '2'] = none := by decide

/-- `add [rb+0], #5, [rb+1]` (spec/30_encoding.md R96). -/
theorem test_assemble :
    assemble ['a', 'd', 'd', ' ', '[', 'r', 'b', '+', '0', ']', ',', ' ', '#', '5', ',', ' ', '[', 'r', 'b', '+', '1',
      ']'] = some [21201, 0, 5, 1] := by decide

theorem test_assemble_jump : assemble ['j', 't', ' ', '#', '1', ',', '#', '-', '5'] = some [1105, 1, -5] := by decide

/-- A queue pre-loaded for a `CALLBACK` source is refused. -/
theorem test_load_refuses : load .default { Straps.default with source := .callback } [99] [1] = none := by decide

theorem test_reset_fields :
    State.reset.eng.map (fun e => (e.ip, e.rb, e.life, e.straps.capacity)) = [(0, 0, .ready, 1000000)] := by decide

/-- The first instruction of a table word runs as the first after reset. -/
theorem test_withFetchWord :
    look (fun e => (e.life, e.ip)) (step (State.reset.withFetchWord 64 99)) = some (.halted, 1) := by decide

/-- Ill-formed terms raise what decode would (log 12). -/
theorem test_illFormed :
    look fault (exec (.inp .immediate) (bench (engine .fatal [103, 0, 99] [5])))
      = some (.faulted, some .illegalInstruction, some .immediateOutput, some 103, 0) := by decide

/-! ### Witnesses: cases that meet the hypotheses of the obligations

`witness_<Name>` is for `Obligations.<Name>`, one for each of its clauses where it has several. -/

/-- An instruction accesses no illegal address, as the witnesses show it. -/
theorem addressable_of {e : Engine} {i : Instr} (h : firstIllegal e i = none) : Addressable e i :=
  (addressable_iff e i).mpr h

/-- Engines of the witnesses: one instruction with the operands 5 and 7. -/
def e3 (w : Int) : Engine := engine .fatal [w, 5, 7, 9] []

theorem witness_DecodeOfEncode : (Instr.add .relative .immediate .relative).wellFormed = true := by decide

theorem witness_EncodeOfDecode : decode 21201 = .ok (.add .relative .immediate .relative) := by decide

theorem witness_IllegalWordsByReason_negative : (-1 : Int) < 0 := by decide

theorem witness_IllegalWordsByReason_unknown : 98 % 100 ∉ [1, 2, 3, 4, 5, 6, 7, 8, 9, 99] := by decide

/-- The opcodes, their numbers of parameters, and whether the last is an output parameter. -/
def shapes : List (Nat × Nat × Bool) :=
  [(1, 3, true), (2, 3, true), (3, 1, true), (4, 1, false), (5, 2, false), (6, 2, false), (7, 3, true), (8, 3, true),
    (9, 1, false), (99, 0, false)]

/-- The third mode digit is 3. -/
theorem witness_IllegalWordsByReason_badDigit :
    (30001 % 100, 3, true) ∈ shapes ∧ ∃ k, 1 ≤ k ∧ k ≤ 3 ∧ 3 ≤ digit 30001 (k + 1) := ⟨by decide, 3, by decide⟩

theorem digits_one {w : Nat} (h : digit w 2 < 3) : ∀ k, 1 ≤ k → k ≤ 1 → digit w (k + 1) < 3 := by
  intro k h1 h2
  obtain rfl : k = 1 := by omega
  exact h

theorem witness_IllegalWordsByReason_immediate :
    (11103 % 100, 1, true) ∈ shapes ∧ (∀ k, 1 ≤ k → k ≤ 1 → digit 11103 (k + 1) < 3) ∧ digit 11103 (1 + 1) = 1 :=
  ⟨by decide, digits_one (by decide), by decide⟩

theorem witness_IllegalWordsByReason_excess :
    (1104 % 100, 1, false) ∈ shapes ∧ (∀ k, 1 ≤ k → k ≤ 1 → digit 1104 (k + 1) < 3)
      ∧ ¬(false = true ∧ digit 1104 (1 + 1) = 1) ∧ 1104 / 10 ^ (1 + 2) ≠ 0 :=
  ⟨by decide, digits_one (by decide), by decide, by decide⟩

theorem witness_IllegalWordsByReason_legal :
    (203 % 100, 1, true) ∈ shapes ∧ (∀ k, 1 ≤ k → k ≤ 1 → digit 203 (k + 1) < 3)
      ∧ ¬(true = true ∧ digit 203 (1 + 1) = 1) ∧ 203 / 10 ^ (1 + 2) = 0 :=
  ⟨by decide, digits_one (by decide), by decide, by decide⟩

theorem witness_MemReadRange_below : (-1 : Int) < 0 ∨ ((e3 1).straps.capacity : Int) ≤ -1 := by decide

theorem witness_MemReadRange_above : (64 : Int) < 0 ∨ ((e3 1).straps.capacity : Int) ≤ 64 := by decide

theorem witness_MemReadRange_last : (0 : Int) ≤ 63 ∧ (63 : Int) < (e3 1).straps.capacity := by decide

theorem witness_MemReadRange_first : (0 : Int) ≤ 0 ∧ (0 : Int) < (e3 1).straps.capacity := by decide

theorem witness_MemWriteCell_below : (e3 1).mem.wf = true ∧ ((-1 : Int) < 0 ∨ ((e3 1).straps.capacity : Int) ≤ -1) := by
  decide

theorem witness_MemWriteCell_above : (e3 1).mem.wf = true ∧ ((64 : Int) < 0 ∨ ((e3 1).straps.capacity : Int) ≤ 64) := by
  decide

theorem witness_MemWriteCell_last : (e3 1).mem.wf = true ∧ (0 : Int) ≤ 63 ∧ (63 : Int) < (e3 1).straps.capacity := by
  decide

theorem witness_MemWriteCell_first : (e3 1).mem.wf = true ∧ (0 : Int) ≤ 0 ∧ (0 : Int) < (e3 1).straps.capacity := by
  decide

/-- A parameter word past the end. -/
theorem witness_IllegalAddressFirstMet_parameter :
    let e := { e3 1 with ip := 62 }
    (Instr.add .position .position .position).wellFormed = true ∧ (bench e).current = some e
      ∧ firstIllegal e (.add .position .position .position) = some 64 := by decide

/-- The target of a jump that is not taken. -/
theorem witness_IllegalAddressFirstMet_operand :
    let e := engine .fatal [6, 1, 64] []
    (Instr.jf .position .position).wellFormed = true ∧ (bench e).current = some e
      ∧ firstIllegal e (.jf .position .position) = some 64 := by decide

/-- The output address. -/
theorem witness_IllegalAddressFirstMet_output :
    let e := engine .fatal [1101, 0, 0, -1] []
    (Instr.add .immediate .immediate .position).wellFormed = true ∧ (bench e).current = some e
      ∧ firstIllegal e (.add .immediate .immediate .position) = some (-1) := by decide

theorem witness_AddWritesSum :
    (bench (e3 1101)).current = some (e3 1101) ∧ Mode.position.writable = true
      ∧ Addressable (e3 1101) (.add .immediate .immediate .position)
      ∧ inRange (bench (e3 1101)).cfg (operandValue (e3 1101) .immediate 1 + operandValue (e3 1101) .immediate 2) = true :=
  ⟨by decide, by decide, addressable_of (by decide), by decide⟩

/-- The sum is the greatest value of the width. -/
theorem witness_AddWritesSum_greatest :
    let e := engine .fatal [1101, 9223372036854775806, 1, 5] []
    (bench e).current = some e ∧ Mode.position.writable = true ∧ Addressable e (.add .immediate .immediate .position)
      ∧ inRange (bench e).cfg (operandValue e .immediate 1 + operandValue e .immediate 2) = true :=
  ⟨by decide, by decide, addressable_of (by decide), by decide⟩

theorem witness_MulWritesProduct :
    let e := engine .fatal [1102, -9223372036854775808, 1, 5] []
    (bench e).current = some e ∧ Mode.position.writable = true ∧ Addressable e (.mul .immediate .immediate .position)
      ∧ inRange (bench e).cfg (operandValue e .immediate 1 * operandValue e .immediate 2) = true :=
  ⟨by decide, by decide, addressable_of (by decide), by decide⟩

theorem witness_OverflowTraps_add :
    let e := engine .fatal [1101, 9223372036854775807, 1, 5] []
    (bench e).current = some e ∧ Mode.position.writable = true ∧ Addressable e (.add .immediate .immediate .position)
      ∧ inRange (bench e).cfg (operandValue e .immediate 1 + operandValue e .immediate 2) = false :=
  ⟨by decide, by decide, addressable_of (by decide), by decide⟩

theorem witness_OverflowTraps_mul :
    let e := engine .fatal [1102, -9223372036854775808, -1, 5] []
    (bench e).current = some e ∧ Mode.position.writable = true ∧ Addressable e (.mul .immediate .immediate .position)
      ∧ inRange (bench e).cfg (operandValue e .immediate 1 * operandValue e .immediate 2) = false :=
  ⟨by decide, by decide, addressable_of (by decide), by decide⟩

theorem witness_OverflowTraps_arb :
    let e := { engine .fatal [109, 1] [] with rb := 9223372036854775807 }
    (bench e).current = some e ∧ Addressable e (.arb .immediate)
      ∧ inRange (bench e).cfg (e.rb + operandValue e .immediate 1) = false :=
  ⟨by decide, addressable_of (by decide), by decide⟩

theorem witness_LtWritesTruth :
    (bench (e3 7)).current = some (e3 7) ∧ Mode.relative.writable = true
      ∧ Addressable (e3 7) (.lt .position .position .relative) :=
  ⟨by decide, by decide, addressable_of (by decide)⟩

theorem witness_EqWritesTruth :
    (bench (e3 8)).current = some (e3 8) ∧ Mode.position.writable = true
      ∧ Addressable (e3 8) (.eq .position .immediate .position) :=
  ⟨by decide, by decide, addressable_of (by decide)⟩

theorem witness_JtJumpsIfNonzero :
    (bench (e3 1105)).current = some (e3 1105) ∧ Addressable (e3 1105) (.jt .immediate .immediate) :=
  ⟨by decide, addressable_of (by decide)⟩

theorem witness_JfJumpsIfZero :
    (bench (e3 6)).current = some (e3 6) ∧ Addressable (e3 6) (.jf .position .position) :=
  ⟨by decide, addressable_of (by decide)⟩

theorem witness_InputDeliversQueued :
    let e := engine .suspend [3, 63] [8, 9]
    (bench e).current = some e ∧ Mode.position.writable = true ∧ Addressable e (.inp .position)
      ∧ e.straps.source = .queue ∧ e.inq = [8, 9] :=
  ⟨by decide, by decide, addressable_of (by decide), by decide, by decide⟩

theorem witness_InputStarvesByPolicy_suspend :
    let e := engine .suspend [3, 0] []
    (bench e).current = some e ∧ Mode.position.writable = true ∧ Addressable e (.inp .position)
      ∧ e.straps.source = .queue ∧ e.inq = [] ∧ e.straps.starve = .suspend :=
  ⟨by decide, by decide, addressable_of (by decide), by decide, by decide, by decide⟩

theorem witness_InputStarvesByPolicy_fatal :
    let e := engine .fatal [203, 0] []
    (bench e).current = some e ∧ Mode.relative.writable = true ∧ Addressable e (.inp .relative)
      ∧ e.straps.source = .queue ∧ e.inq = [] ∧ e.straps.starve = .fatal :=
  ⟨by decide, by decide, addressable_of (by decide), by decide, by decide, by decide⟩

theorem witness_InputStarvesByPolicy_signal :
    let e := engine .signal [3, 63] []
    (bench e).current = some e ∧ Mode.position.writable = true ∧ Addressable e (.inp .position)
      ∧ e.straps.source = .queue ∧ e.inq = [] ∧ e.straps.starve = .signal :=
  ⟨by decide, by decide, addressable_of (by decide), by decide, by decide, by decide⟩

theorem witness_InputAsksCallback :
    let e := Engine.fresh { Straps.default with source := .callback } (.ofList 0 [3, 5]) []
    (bench e).current = some e ∧ Mode.position.writable = true ∧ Addressable e (.inp .position)
      ∧ e.straps.source = .callback :=
  ⟨by decide, by decide, addressable_of (by decide), by decide⟩

theorem witness_OutputToHost_record :
    (bench (e3 104)).current = some (e3 104) ∧ Addressable (e3 104) (.out .immediate)
      ∧ ((e3 104).straps.sink = .record ∨ (bench (e3 104)).cfg.topology = .single) :=
  ⟨by decide, addressable_of (by decide), by decide⟩

theorem witness_OutputToHost_callback :
    let e := Engine.fresh { Straps.default with sink := .callback } (.ofList 0 [104, 5]) []
    (bench e).current = some e ∧ Addressable e (.out .immediate) ∧ (e.straps.sink = .record ∨ (bench e).cfg.topology = .single) :=
  ⟨by decide, addressable_of (by decide), by decide⟩

/-- An engine of the network with a value to send. -/
def sender : Engine := .fresh (.network 128) (.ofList 0 [104, 2, 99]) [0]

theorem witness_OutputToRouter :
    (pair [104, 2, 99] [99]).current = some sender ∧ Addressable sender (.out .immediate)
      ∧ sender.straps.sink = .callback ∧ (pair [104, 2, 99] [99]).cfg.topology = .network :=
  ⟨by decide, addressable_of (by decide), by decide, by decide⟩

theorem witness_ArbAddsToBase :
    let e := { engine .fatal [109, -1] [] with rb := -9223372036854775807 }
    (bench e).current = some e ∧ Addressable e (.arb .immediate)
      ∧ inRange (bench e).cfg (e.rb + operandValue e .immediate 1) = true :=
  ⟨by decide, addressable_of (by decide), by decide⟩

theorem witness_HaltHalts : (bench (e3 99)).current = some (e3 99) := by decide

theorem witness_ComputeFrame :
    Instr.add .position .position .position ∈ [Instr.add .position .position .position, .mul .position .position .position,
        .lt .position .position .position, .eq .position .position .position]
      ∧ (bench (e3 1)).current = some (e3 1) ∧ ∃ t, exec (.add .position .position .position) (bench (e3 1)) = .next t :=
  ⟨by decide, by decide, _, rfl⟩

theorem witness_RegisterFrame :
    Instr.jt .immediate .immediate ∈ [Instr.jt .immediate .immediate, .jf .immediate .immediate, .arb .immediate, .halt]
      ∧ (bench (e3 1105)).current = some (e3 1105)
      ∧ ∃ t, exec (.jt .immediate .immediate) (bench (e3 1105)) = .next t :=
  ⟨by decide, by decide, _, rfl⟩

/-- A starved `in` under `SUSPEND`: the premise of the last clause is met as well. -/
theorem witness_InputFrame :
    let e := engine .suspend [3, 5] []
    (bench e).current = some e
      ∧ ∃ t, exec (.inp .position) (bench e) = .next t ∧ (t.reply = some .suspend ∨ t.reply = some .fault) :=
  ⟨by decide, _, rfl, .inl rfl⟩

theorem witness_OutputFrame :
    (pair [104, 2, 99] [99]).current = some sender
      ∧ ∃ t, exec (.out .immediate) (pair [104, 2, 99] [99]) = .next t :=
  ⟨by decide, _, rfl⟩

theorem witness_StepRunsDecoded_single :
    (bench (e3 1101)).current = some (e3 1101) ∧ (e3 1101).life ≠ .halted ∧ (e3 1101).life ≠ .faulted
      ∧ 0 ≤ (e3 1101).ip ∧ (e3 1101).ip < (e3 1101).straps.capacity
      ∧ decode ((e3 1101).mem.read (e3 1101).ip.toNat) = .ok (.add .immediate .immediate .position)
      ∧ (bench (e3 1101)).cfg.topology = .single := by decide

theorem witness_StepRunsDecoded_network :
    (pair [104, 2, 99] [99]).current = some sender ∧ sender.life ≠ .halted ∧ sender.life ≠ .faulted ∧ 0 ≤ sender.ip
      ∧ sender.ip < sender.straps.capacity ∧ decode (sender.mem.read sender.ip.toNat) = .ok (.out .immediate)
      ∧ (pair [104, 2, 99] [99]).cfg.topology = .network ∧ (pair [104, 2, 99] [99]).netState = .running := by decide

theorem witness_StepRunsDecoded_exec : ∃ t, exec (.out .immediate) (pair [104, 2, 99] [99]) = .next t := ⟨_, rfl⟩

theorem witness_StepRunsDecoded_ended :
    let s := { pair [104, 2, 99] [99] with netState := .terminated, netAnswer := some 9 }
    s.current = some sender ∧ s.cfg.topology = .network ∧ s.netState ≠ .running := by decide

theorem witness_FetchAtIp_outside :
    let e := { e3 1 with ip := 64 }
    (bench e).current = some e ∧ e.life ≠ .halted ∧ e.life ≠ .faulted ∧ (e.ip < 0 ∨ (e.straps.capacity : Int) ≤ e.ip) := by
  decide

theorem witness_FetchAtIp_negative :
    let e := { e3 1 with ip := -1 }
    (bench e).current = some e ∧ e.life ≠ .halted ∧ e.life ≠ .faulted ∧ (e.ip < 0 ∨ (e.straps.capacity : Int) ≤ e.ip) := by
  decide

theorem witness_FetchAtIp_last :
    let e := { engine .fatal [] [] with ip := 63, mem := [(63, 99)] }
    (bench e).current = some e ∧ e.life ≠ .halted ∧ e.life ≠ .faulted ∧ 0 ≤ e.ip ∧ e.ip < e.straps.capacity
      ∧ decode (e.mem.read e.ip.toNat) = .ok .halt := by decide

theorem witness_FetchAtIp_refused :
    let e := engine .fatal [0] []
    (bench e).current = some e ∧ e.life ≠ .halted ∧ e.life ≠ .faulted ∧ 0 ≤ e.ip ∧ e.ip < e.straps.capacity
      ∧ decode (e.mem.read e.ip.toNat) = .error .unknownOpcode := by decide

theorem witness_IllegalWordFaults :
    let e := engine .fatal [11103] []
    (bench e).cfg.topology = .single ∧ (bench e).current = some e ∧ e.life ≠ .halted ∧ e.life ≠ .faulted ∧ 0 ≤ e.ip
      ∧ e.ip < e.straps.capacity ∧ decode (e.mem.read e.ip.toNat) = .error .immediateOutput := by decide

theorem witness_FaultsArePrecise :
    let e := engine .fatal [3, -1] [5]
    (bench e).current = some e ∧ e.life ≠ .halted ∧ e.life ≠ .faulted
      ∧ ∃ t, cycle (bench e) = .next t ∧ t.reply = some .fault :=
  ⟨by decide, by decide, by decide, _, rfl, rfl⟩

theorem witness_EventAndLifecycle :
    (bench (e3 1101)).current = some (e3 1101) ∧ (e3 1101).life ≠ .halted ∧ (e3 1101).life ≠ .faulted := by decide

theorem witness_TerminalEngineIgnoresCommands :
    let e := { e3 99 with life := .halted }
    (bench e).current = some e ∧ (e.life = .halted ∨ e.life = .faulted) := by decide

theorem witness_CommandsRunUntilTheirEvent :
    (bench (e3 1101)).cfg.topology = .single ∧ ∃ t, drive .step 1 (bench (e3 1101)) = some t := ⟨by decide, _, rfl⟩

theorem witness_OnlyArbChangesBase :
    let e := engine .fatal [109, 19] []
    (bench e).eng[0]? = some e
      ∧ ∃ t f, exec (.arb .immediate) (bench e) = .next t ∧ t.eng[0]? = some f ∧ f.rb ≠ e.rb :=
  ⟨by decide, _, _, rfl, rfl, by decide⟩

theorem witness_OutputStreamOnlyGrows :
    (bench (e3 104)).eng[0]? = some (e3 104) ∧ ∃ t, step (bench (e3 104)) = .next t := ⟨by decide, _, rfl⟩

theorem witness_ConfigurationIsConstant : ∃ t, step (pair [104, 2, 99] [99]) = .next t := ⟨_, rfl⟩

theorem witness_EnginesAreIsolated :
    1 ≠ (pair [104, 2, 99] [99]).cursor ∧ (∃ f, (pair [104, 2, 99] [99]).eng[1]? = some f)
      ∧ ∃ t, step (pair [104, 2, 99] [99]) = .next t :=
  ⟨by decide, ⟨_, rfl⟩, _, rfl⟩

theorem witness_StepAlwaysAnswersNext : (bench (e3 1101)).current ≠ none := by decide

theorem witness_RelativeIsPositionAtBaseZero :
    (Instr.add .relative .relative .relative).wellFormed = true ∧ (bench (e3 22201)).current = some (e3 22201)
      ∧ (e3 22201).rb = 0 := by decide

theorem witness_LargerMachineAgrees :
    (bench (e3 1101)).cfg.topology = .single ∧ (bench (e3 1101)).current = some (e3 1101)
      ∧ (e3 1101).straps.source = .queue ∧ (e3 1101).straps.capacity ≤ 128
      ∧ (∀ v, inRange (bench (e3 1101)).cfg v = true → inRange { (bench (e3 1101)).cfg with xlen := none } v = true)
      ∧ ∃ t e', step (bench (e3 1101)) = .next t ∧ t.reply ≠ some .fault ∧ t.current = some e' :=
  ⟨by decide, by decide, by decide, by decide, fun _ _ => rfl, _, _, rfl, by decide, rfl⟩

/-- The machine of the invariants' witnesses holds a program and a queue. -/
theorem witness_MemoryStaysCanonical :
    MemoryInv (bench (e3 1101)) ∧ ∃ t, step (bench (e3 1101)) = .next t := by
  refine ⟨?_, _, rfl⟩
  intro e he
  obtain rfl : e = e3 1101 := by simpa [bench, State.fresh] using he
  exact ⟨by decide, by decide⟩

theorem witness_ValuesStayInRange :
    ValuesInv (bench (engine .fatal [3, 9] [8])) ∧ ∃ t, step (bench (engine .fatal [3, 9] [8])) = .next t := by
  refine ⟨⟨⟨by decide, ?_⟩, ⟨rfl, rfl, by decide⟩, ?_, ?_⟩, _, rfl⟩
  · intro e he
    obtain rfl : e = engine .fatal [3, 9] [8] := by simpa [bench, State.fresh] using he
    decide
  · simp [NetworkValuesOk, bench, State.fresh]
  · intro e he
    obtain rfl : e = engine .fatal [3, 9] [8] := by simpa [bench, State.fresh] using he
    exact ⟨by decide, by decide, by decide, by decide, by decide, by decide, fun v h => by cases h⟩

theorem witness_StatusRegistersAgree :
    StatusInv (bench (e3 1101)) ∧ ∃ t, step (bench (e3 1101)) = .next t := by
  refine ⟨?_, _, rfl⟩
  intro e he
  obtain rfl : e = e3 1101 := by simpa [bench, State.fresh] using he
  exact ⟨⟨by decide, by decide, by decide⟩, by unfold LastOutputOk; decide, by unfold WaitingOk; decide⟩

theorem witness_NetworkStatusAgrees :
    NetworkStatusOk (pair [104, 2, 99] [99]) ∧ ∃ t, step (pair [104, 2, 99] [99]) = .next t :=
  ⟨⟨by decide, by decide⟩, _, rfl⟩

theorem witness_TerminalStatesAreFinal :
    let e := { e3 99 with life := .faulted, faultCause := some .overflow, faultInfo := some 7 }
    (bench e).eng[0]? = some e ∧ (e.life = .faulted ∨ e.life = .halted) ∧ ∃ t, step (bench e) = .next t :=
  ⟨by decide, by decide, _, rfl⟩

theorem witness_LoadConstructs :
    Config.default.topology = .single ∧ ∃ s, load .default .default [1101, 3, 4, 0, 99] [7] = some s := ⟨rfl, _, rfl⟩

/-- Two engines of different capacities, the first filled by its program. -/
theorem witness_NetworkLoadConstructs : ∃ s, loadNetwork ⟨.network, some 64, 2⟩ [(1, [99]), (128, [3, 50])] = some s :=
  ⟨_, rfl⟩

/-- More programs than engines. -/
theorem witness_NetworkLoadConstructs_refused : loadNetwork ⟨.network, some 64, 1⟩ [(1, [99]), (128, [3, 50])] = none :=
  rfl

theorem witness_QueueSourceIsFifo_empty : (e3 3).straps.source = .queue ∧ (e3 3).inq = [] := by decide

theorem witness_QueueSourceIsFifo_values :
    (engine .fatal [3, 0] [8, 9]).straps.source = .queue ∧ (engine .fatal [3, 0] [8, 9]).inq = 8 :: [9] := by decide

theorem witness_PushAppends :
    (bench (e3 3)).current = some (e3 3) ∧ (bench (e3 3)).cfg.topology = .single ∧ (e3 3).straps.source = .queue
      ∧ inRange (bench (e3 3)).cfg 9223372036854775807 = true := by decide

theorem witness_PushAppends_refused :
    (bench (e3 3)).current = some (e3 3) ∧ (bench (e3 3)).cfg.topology = .single
      ∧ ((e3 3).straps.source = .callback ∨ inRange (bench (e3 3)).cfg 9223372036854775808 = false) := by decide

theorem witness_RouterCollectsTriples_collects :
    { pair [] [] with acc := [[1], []] }.acc[0]? = some [1] ∧ [(1 : Int)].length ≤ 2 ∧ [(1 : Int)].length < 2 := by decide

theorem witness_RouterCollectsTriples_delivers :
    { pair [] [] with acc := [[1, 11], []] }.acc[0]? = some [1, 11] ∧ [(1 : Int), 11].length ≤ 2 := by decide

theorem witness_RouterCollectsTriples_sink :
    (pair [104, 2, 99] [99]).cfg.topology = .network ∧ sender.straps.sink = .callback := by decide

/-- The last engine of two, and the first address that is none. -/
theorem witness_RouterDelivers_engine :
    (1 : Int) = (1 : Nat) ∧ 1 < (pair [] []).cfg.nEngines ∧ (pair [] []).cfg.nEngines ≤ 255
      ∧ ∃ f, (pair [] []).eng[1]? = some f := ⟨rfl, by decide, by decide, _, rfl⟩

theorem witness_RouterDelivers_illegal :
    (2 : Int) ≠ 255 ∧ ((2 : Int) < 0 ∨ ((pair [] []).cfg.nEngines : Int) ≤ 2) := by decide

/-- The engines of an idle network. -/
def idlePair : State :=
  { pair [] [] with
    eng := (pair [] []).eng.map (fun e => { e with inq := [], inputFailed := true }), natHeld := some (7, 9) }

theorem witness_MonitorAtEndOfPass_reinjects :
    idle idlePair = true ∧ idlePair.natHeld = some (7, 9) ∧ idlePair.natLastY ≠ some 9 ∧ ∃ f, idlePair.eng[0]? = some f :=
  ⟨by decide, by decide, by decide, _, rfl⟩

theorem witness_MonitorAtEndOfPass_ends :
    let s := { idlePair with natLastY := some 9 }
    idle s = true ∧ s.natHeld = some (7, 9) ∧ s.natLastY = some 9 := by decide

theorem witness_MonitorAtEndOfPass_busy : idle (pair [] []) = false := by decide

theorem witness_MonitorAtEndOfPass_empty : (pair [] []).natHeld = none := by decide

theorem witness_SchedulerMovesOn_next :
    (pair [104, 2, 99] [99]).current = some sender ∧ (.stall : Event) ≠ .fault
      ∧ (pair [104, 2, 99] [99]).netState = .running
      ∧ (pair [104, 2, 99] [99]).cursor + 1 ≠ (pair [104, 2, 99] [99]).cfg.nEngines := by decide

theorem witness_SchedulerMovesOn_pass :
    let s := { pair [104, 2, 99] [99] with cursor := 1 }
    (∃ e, s.current = some e) ∧ (.halt : Event) ≠ .fault ∧ s.netState = .running ∧ s.cursor + 1 = s.cfg.nEngines :=
  ⟨⟨_, rfl⟩, by decide, by decide, by decide⟩

theorem witness_SchedulerMovesOn_stopped :
    let s := { pair [104, 2, 99] [99] with netState := .faulted }
    s.current = some sender ∧ (.output 2 : Event) ≠ .fault ∧ s.netState ≠ .running := by decide

theorem witness_NetworkStepIsReached :
    (pair [104, 2, 99] [99]).cfg.topology = .network ∧ (pair [104, 2, 99] [99]).netState = .running
      ∧ ∃ t, netStep 1 (pair [104, 2, 99] [99]) = some t := ⟨by decide, by decide, _, rfl⟩

theorem witness_EndedNetworkStands :
    let s := { pair [] [] with netState := .terminated, netAnswer := some 9 }
    s.cfg.topology = .network ∧ s.netState ≠ .running := by decide

end Sys2Proof.Tests
end

section
/-!
PROOFS of the family spec/20_memory.md. The range check of an address as inequalities, and the two outcomes of a read.
-/

namespace Sys2Proof.Machine

theorem inMemory_eq_true_iff {e : Engine} {a : Int} : inMemory e a = true ↔ 0 ≤ a ∧ a < e.straps.capacity :=
  decide_eq_true_iff

theorem inMemory_eq_false_iff {e : Engine} {a : Int} :
    inMemory e a = false ↔ a < 0 ∨ (e.straps.capacity : Int) ≤ a := by
  rw [← Bool.not_eq_true, inMemory_eq_true_iff]
  omega

theorem memRead_ok {e : Engine} {a : Int} (h : inMemory e a = true) : memRead e a = .ok (e.mem.read a.toNat) :=
  if_pos h

theorem memRead_error {e : Engine} {a : Int} (h : inMemory e a = false) : memRead e a = .error (illegalAddress a) :=
  if_neg (ne_true_of_eq_false h)

/-- Settles O5: the range check of a read fails exactly below 0 and from `CAPACITY` on (R54). -/
theorem memReadRange : Obligations.MemReadRange := by
  intro e a
  constructor
  · intro outside
    exact memRead_error (inMemory_eq_false_iff.mpr outside)
  · intro lower upper
    exact memRead_ok (inMemory_eq_true_iff.mpr ⟨lower, upper⟩)

end Sys2Proof.Machine
end

section
/-!
PROOFS of the family spec/40_execution_cycle.md. A read as one conditional over the inequalities of its range check,
and what `operand` gives in each mode.
-/

namespace Sys2Proof.Machine

theorem memRead_eq_ite (e : Engine) (a : Int) :
    memRead e a =
      if 0 ≤ a ∧ a < e.straps.capacity then .ok (e.mem.read a.toNat) else .error (illegalAddress a) :=
  if_congr inMemory_eq_true_iff rfl rfl

@[simp] theorem operand_immediate (e : Engine) (p : Word) : operand e .immediate p = .ok p := rfl

@[simp] theorem operand_position (e : Engine) (p : Word) : operand e .position p = memRead e p := rfl

@[simp] theorem operand_relative (e : Engine) (p : Word) : operand e .relative p = memRead e (e.rb + p) := rfl

/-- Settles O7: an operand that is not immediate is one checked read, at the cell `p` or at the exact sum `rb + p`
(R106). -/
theorem inputOperandByMode : Obligations.InputOperandByMode := by
  intro e p
  refine ⟨operand_immediate e p, ?position, ?relative⟩
  case position =>
    rw [operand_position]
    exact memRead_eq_ite e p
  case relative =>
    rw [operand_relative]
    exact memRead_eq_ite e (e.rb + p)

end Sys2Proof.Machine
end

section
/-!
PROOFS of the family spec/60_exceptions.md. What the router does with a value, by the length of the sender's
accumulator, the accumulators it leaves as they are, and the idle test as a statement about every engine.
-/

namespace Sys2Proof.Machine

/-! ### The router (R245) -/

@[simp] theorem deliver_acc (s : State) (i : Nat) (d x y : Word) : (deliver s i d x y).acc = s.acc := by
  rcases deliver_cases s i d x y with ⟨-, monitor⟩ | ⟨-, -, -, engine⟩ | ⟨-, -, illegal⟩
  · rw [monitor]
  · rw [engine, enqueue_acc]
  · rw [illegal, failNetwork_acc]

/-- An accumulator that does not hold two values collects the next one. -/
theorem route_collects {s : State} {i : Nat} (h : (s.acc.getD i []).length ≠ 2) (v : Word) :
    route s i v = { s with acc := s.acc.set i (s.acc.getD i [] ++ [v]) } := by
  rcases route_cases s i v with ⟨d, x, hacc, -⟩ | ⟨-, hroute⟩
  · exact absurd (congrArg List.length hacc) h
  · exact hroute

/-- The value after the two that an accumulator holds completes the triple. -/
theorem route_delivers {s : State} {i : Nat} {d x : Word} (h : s.acc.getD i [] = [d, x]) (v : Word) :
    route s i v = deliver { s with acc := s.acc.set i [] } i d x v := by
  rcases route_cases s i v with ⟨d', x', hacc, hroute⟩ | ⟨hlen, -⟩
  · obtain ⟨rfl, rfl⟩ : d' = d ∧ x' = x := by simpa using hacc.symm.trans h
    exact hroute
  · exact absurd (congrArg List.length h) hlen

/-- Outputs of different engines never meet in one accumulator. -/
theorem route_acc_of_ne {i j : Nat} (h : j ≠ i) (s : State) (v : Word) : (route s i v).acc[j]? = s.acc[j]? := by
  rcases route_cases s i v with ⟨d, x, -, hroute⟩ | ⟨-, hroute⟩ <;> rw [hroute]
  · rw [deliver_acc, List.getElem?_set_ne h.symm]
  · exact List.getElem?_set_ne h.symm

theorem acceptOutput_network_callback {s : State} {e : Engine} (ht : s.cfg.topology = .network)
    (hs : e.straps.sink = .callback) (v : Word) : acceptOutput s e v = route (s.setCurrent e) s.cursor v := by
  simp only [acceptOutput, hs, ht]

/-- Settles O53: the three clauses about `route` by the sender's accumulator, and the sink of a network engine (R245). -/
theorem routerCollectsTriples : Obligations.RouterCollectsTriples := by
  refine ⟨?router, ?sink⟩
  case router =>
    intro s i a v ha _
    obtain rfl : s.acc.getD i [] = a := by rw [List.getD_eq_getElem?_getD, ha, Option.getD_some]
    refine ⟨?collects, ?delivers, ?others⟩
    case collects => exact fun hlen => route_collects hlen.ne v
    case delivers => exact fun d x hacc => route_delivers hacc v
    case others => exact fun j hj => route_acc_of_ne hj s v
  case sink => exact fun s e v ht hs => acceptOutput_network_callback ht hs v

/-! ### The idle test (R250) -/

theorem idle_eq_true_iff {s : State} : idle s = true ↔ ∀ e ∈ s.eng, e.inputFailed = true ∧ e.inq = [] := by
  simp only [idle, List.all_eq_true, Bool.and_eq_true, decide_eq_true_eq]

/-- Settles O55: both conditions of the idle test hold of every engine iff each of them does (R250). -/
theorem idlePredicate : Obligations.IdlePredicate := by
  intro s
  rw [idle_eq_true_iff]
  exact forall₂_and

end Sys2Proof.Machine
end

section
/-!
PROOFS of the statements about the instruction word (spec/30_encoding.md). The digits of the word of each format; decode
of such a word; and why a word is refused, said once for each format.
-/

namespace Sys2Proof

/-! ### The word of each format (R86, R89) -/

theorem encodeIIO_mod {op : Nat} (hop : op < 100) (a b d : Mode) : encodeIIO op a b d % 100 = op := by
  unfold encodeIIO
  omega

theorem encodeII_mod {op : Nat} (hop : op < 100) (a b : Mode) : encodeII op a b % 100 = op := by
  unfold encodeII
  omega

theorem encodeI_mod {op : Nat} (hop : op < 100) (a : Mode) : encodeI op a % 100 = op := by
  unfold encodeI
  omega

theorem encodeIIO_digits {op : Nat} (hop : op < 100) (a b d : Mode) :
    digit (encodeIIO op a b d) 2 = modeDigit a ∧ digit (encodeIIO op a b d) 3 = modeDigit b
      ∧ digit (encodeIIO op a b d) 4 = modeDigit d ∧ encodeIIO op a b d / 10 ^ 5 = 0 := by
  have ha := modeDigit_lt a
  have hb := modeDigit_lt b
  have hd := modeDigit_lt d
  simp only [digit, encodeIIO]
  omega

theorem encodeII_digits {op : Nat} (hop : op < 100) (a b : Mode) :
    digit (encodeII op a b) 2 = modeDigit a ∧ digit (encodeII op a b) 3 = modeDigit b
      ∧ encodeII op a b / 10 ^ 4 = 0 := by
  have ha := modeDigit_lt a
  have hb := modeDigit_lt b
  simp only [digit, encodeII]
  omega

theorem encodeI_digits {op : Nat} (hop : op < 100) (a : Mode) :
    digit (encodeI op a) 2 = modeDigit a ∧ encodeI op a / 10 ^ 3 = 0 := by
  have ha := modeDigit_lt a
  simp only [digit, encodeI]
  omega

theorem noExcess_ok {w n : Nat} (h : w / 10 ^ (n + 2) = 0) (i : Instr) : noExcess w n i = .ok i := if_pos h

theorem noExcess_error {w n : Nat} (h : w / 10 ^ (n + 2) ≠ 0) (i : Instr) : noExcess w n i = .error .excessDigits :=
  if_neg h

theorem decodeIIO_of_digits (mk : Mode → Mode → Mode → Instr) {w : Nat} {a b d : Mode} (ha : digit w 2 = modeDigit a)
    (hb : digit w 3 = modeDigit b) (hd : digit w 4 = modeDigit d) (hw : d.writable = true) :
    decodeIIO mk w = noExcess w 3 (mk a b d) := by
  simp only [decodeIIO, inputMode_of_digit (k := 1) ha, inputMode_of_digit (k := 2) hb,
    outputMode_of_digit (k := 3) hd hw, bind, Except.bind]

theorem decodeII_of_digits (mk : Mode → Mode → Instr) {w : Nat} {a b : Mode} (ha : digit w 2 = modeDigit a)
    (hb : digit w 3 = modeDigit b) : decodeII mk w = noExcess w 2 (mk a b) := by
  simp only [decodeII, inputMode_of_digit (k := 1) ha, inputMode_of_digit (k := 2) hb, bind, Except.bind]

theorem decodeI_of_digits (mk : Mode → Instr) {w : Nat} {a : Mode} (ha : digit w 2 = modeDigit a) :
    decodeI mk w = noExcess w 1 (mk a) := by
  simp only [decodeI, inputMode_of_digit (k := 1) ha, bind, Except.bind]

theorem decodeO_of_digits (mk : Mode → Instr) {w : Nat} {d : Mode} (hd : digit w 2 = modeDigit d)
    (hw : d.writable = true) : decodeO mk w = noExcess w 1 (mk d) := by
  simp only [decodeO, outputMode_of_digit (k := 1) hd hw, bind, Except.bind]

theorem decodeIIO_encodeIIO (mk : Mode → Mode → Mode → Instr) {op : Nat} (hop : op < 100) (a b : Mode) {d : Mode}
    (hw : d.writable = true) : decodeIIO mk (encodeIIO op a b d) = .ok (mk a b d) := by
  obtain ⟨ha, hb, hd, hx⟩ := encodeIIO_digits hop a b d
  rw [decodeIIO_of_digits mk ha hb hd hw, noExcess_ok hx]

theorem decodeII_encodeII (mk : Mode → Mode → Instr) {op : Nat} (hop : op < 100) (a b : Mode) :
    decodeII mk (encodeII op a b) = .ok (mk a b) := by
  obtain ⟨ha, hb, hx⟩ := encodeII_digits hop a b
  rw [decodeII_of_digits mk ha hb, noExcess_ok hx]

theorem decodeI_encodeI (mk : Mode → Instr) {op : Nat} (hop : op < 100) (a : Mode) :
    decodeI mk (encodeI op a) = .ok (mk a) := by
  obtain ⟨ha, hx⟩ := encodeI_digits hop a
  rw [decodeI_of_digits mk ha, noExcess_ok hx]

theorem decodeO_encodeI (mk : Mode → Instr) {op : Nat} (hop : op < 100) {d : Mode} (hw : d.writable = true) :
    decodeO mk (encodeI op d) = .ok (mk d) := by
  obtain ⟨hd, hx⟩ := encodeI_digits hop d
  rw [decodeO_of_digits mk hd hw, noExcess_ok hx]

/-! Decode selects the decoder of a format by `w mod 100` (R82). -/

theorem decodeNat_add {w : Nat} (h : w % 100 = 1) : decodeNat w = decodeIIO .add w := by simp only [decodeNat, h]

theorem decodeNat_mul {w : Nat} (h : w % 100 = 2) : decodeNat w = decodeIIO .mul w := by simp only [decodeNat, h]

theorem decodeNat_inp {w : Nat} (h : w % 100 = 3) : decodeNat w = decodeO .inp w := by simp only [decodeNat, h]

theorem decodeNat_out {w : Nat} (h : w % 100 = 4) : decodeNat w = decodeI .out w := by simp only [decodeNat, h]

theorem decodeNat_jt {w : Nat} (h : w % 100 = 5) : decodeNat w = decodeII .jt w := by simp only [decodeNat, h]

theorem decodeNat_jf {w : Nat} (h : w % 100 = 6) : decodeNat w = decodeII .jf w := by simp only [decodeNat, h]

theorem decodeNat_lt {w : Nat} (h : w % 100 = 7) : decodeNat w = decodeIIO .lt w := by simp only [decodeNat, h]

theorem decodeNat_eq {w : Nat} (h : w % 100 = 8) : decodeNat w = decodeIIO .eq w := by simp only [decodeNat, h]

theorem decodeNat_arb {w : Nat} (h : w % 100 = 9) : decodeNat w = decodeI .arb w := by simp only [decodeNat, h]

theorem decodeNat_halt {w : Nat} (h : w % 100 = 99) : decodeNat w = noExcess w 0 .halt := by simp only [decodeNat, h]

theorem decodeNat_encodeNat {i : Instr} (hi : i.wellFormed = true) : decodeNat (encodeNat i) = .ok i := by
  cases i with
  | add a b d =>
    exact (decodeNat_add (encodeIIO_mod (by decide) a b d)).trans (decodeIIO_encodeIIO .add (by decide) a b hi)
  | mul a b d =>
    exact (decodeNat_mul (encodeIIO_mod (by decide) a b d)).trans (decodeIIO_encodeIIO .mul (by decide) a b hi)
  | inp d => exact (decodeNat_inp (encodeI_mod (by decide) d)).trans (decodeO_encodeI .inp (by decide) hi)
  | out a => exact (decodeNat_out (encodeI_mod (by decide) a)).trans (decodeI_encodeI .out (by decide) a)
  | jt a b => exact (decodeNat_jt (encodeII_mod (by decide) a b)).trans (decodeII_encodeII .jt (by decide) a b)
  | jf a b => exact (decodeNat_jf (encodeII_mod (by decide) a b)).trans (decodeII_encodeII .jf (by decide) a b)
  | lt a b d =>
    exact (decodeNat_lt (encodeIIO_mod (by decide) a b d)).trans (decodeIIO_encodeIIO .lt (by decide) a b hi)
  | eq a b d =>
    exact (decodeNat_eq (encodeIIO_mod (by decide) a b d)).trans (decodeIIO_encodeIIO .eq (by decide) a b hi)
  | arb a => exact (decodeNat_arb (encodeI_mod (by decide) a)).trans (decodeI_encodeI .arb (by decide) a)
  | halt => rfl

/-- Settles O1: the word of an instruction has the digits its decoder looks for (R86). -/
theorem decodeOfEncode : Obligations.DecodeOfEncode := by
  intro i hi
  rw [show encode i = (encodeNat i : Int) from rfl, decode_natCast]
  exact decodeNat_encodeNat hi

/-! ### The words that decode (R89) -/

/-- A word of format IIO is the sum of its digits. -/
theorem encodeIIO_of_digits {w op : Nat} {a b d : Mode} (hop : w % 100 = op) (ha : digit w 2 = modeDigit a)
    (hb : digit w 3 = modeDigit b) (hd : digit w 4 = modeDigit d) (hx : w / 10 ^ 5 = 0) : encodeIIO op a b d = w := by
  rw [encodeIIO, ← hop, ← ha, ← hb, ← hd]
  exact (digits_sum w hx).symm

theorem encodeII_of_digits {w op : Nat} {a b : Mode} (hop : w % 100 = op) (ha : digit w 2 = modeDigit a)
    (hb : digit w 3 = modeDigit b) (hx : w / 10 ^ 4 = 0) : encodeII op a b = w := by
  rw [encodeII, ← hop, ← ha, ← hb]
  simp only [digit]
  omega

theorem encodeI_of_digits {w op : Nat} {a : Mode} (hop : w % 100 = op) (ha : digit w 2 = modeDigit a)
    (hx : w / 10 ^ 3 = 0) : encodeI op a = w := by
  rw [encodeI, ← hop, ← ha]
  simp only [digit]
  omega

/-- A format IIO instruction that a word decodes to: its output mode is writable and its word is that word. -/
theorem decodeIIO_word {mk : Mode → Mode → Mode → Instr} {w op : Nat} {i : Instr} (hop : w % 100 = op)
    (h : decodeIIO mk w = .ok i) : ∃ a b d, i = mk a b d ∧ d.writable = true ∧ encodeIIO op a b d = w := by
  obtain ⟨a, b, d, ha, hb, hd, hw, hx, hi⟩ := decodeIIO_ok h
  exact ⟨a, b, d, hi, hw, encodeIIO_of_digits hop ha hb hd hx⟩

theorem decodeII_word {mk : Mode → Mode → Instr} {w op : Nat} {i : Instr} (hop : w % 100 = op)
    (h : decodeII mk w = .ok i) : ∃ a b, i = mk a b ∧ encodeII op a b = w := by
  obtain ⟨a, b, ha, hb, hx, hi⟩ := decodeII_ok h
  exact ⟨a, b, hi, encodeII_of_digits hop ha hb hx⟩

theorem decodeI_word {mk : Mode → Instr} {w op : Nat} {i : Instr} (hop : w % 100 = op) (h : decodeI mk w = .ok i) :
    ∃ a, i = mk a ∧ encodeI op a = w := by
  obtain ⟨a, ha, hx, hi⟩ := decodeI_ok h
  exact ⟨a, hi, encodeI_of_digits hop ha hx⟩

theorem decodeO_word {mk : Mode → Instr} {w op : Nat} {i : Instr} (hop : w % 100 = op) (h : decodeO mk w = .ok i) :
    ∃ d, i = mk d ∧ d.writable = true ∧ encodeI op d = w := by
  obtain ⟨d, hd, hw, hx, hi⟩ := decodeO_ok h
  exact ⟨d, hi, hw, encodeI_of_digits hop hd hx⟩

/-- `halt` has no mode digits: its word is the opcode alone. -/
theorem noExcess_halt_word {w : Nat} {i : Instr} (hop : w % 100 = 99) (h : noExcess w 0 .halt = .ok i) :
    i = .halt ∧ w = 99 := by
  unfold noExcess at h
  split at h
  · exact ⟨by simpa using h.symm, by omega⟩
  · cases h

theorem decodeNat_word {w : Nat} {i : Instr} (h : decodeNat w = .ok i) : i.wellFormed = true ∧ encodeNat i = w := by
  rcases decodeNat_cases h with ⟨hop, h⟩ | ⟨hop, h⟩ | ⟨hop, h⟩ | ⟨hop, h⟩ | ⟨hop, h⟩ | ⟨hop, h⟩ | ⟨hop, h⟩ |
    ⟨hop, h⟩ | ⟨hop, h⟩ | ⟨hop, h⟩
  · obtain ⟨a, b, d, rfl, hw, he⟩ := decodeIIO_word hop h
    exact ⟨hw, he⟩
  · obtain ⟨a, b, d, rfl, hw, he⟩ := decodeIIO_word hop h
    exact ⟨hw, he⟩
  · obtain ⟨d, rfl, hw, he⟩ := decodeO_word hop h
    exact ⟨hw, he⟩
  · obtain ⟨a, rfl, he⟩ := decodeI_word hop h
    exact ⟨rfl, he⟩
  · obtain ⟨a, b, rfl, he⟩ := decodeII_word hop h
    exact ⟨rfl, he⟩
  · obtain ⟨a, b, rfl, he⟩ := decodeII_word hop h
    exact ⟨rfl, he⟩
  · obtain ⟨a, b, d, rfl, hw, he⟩ := decodeIIO_word hop h
    exact ⟨hw, he⟩
  · obtain ⟨a, b, d, rfl, hw, he⟩ := decodeIIO_word hop h
    exact ⟨hw, he⟩
  · obtain ⟨a, rfl, he⟩ := decodeI_word hop h
    exact ⟨rfl, he⟩
  · obtain ⟨rfl, rfl⟩ := noExcess_halt_word hop h
    exact ⟨rfl, rfl⟩

/-- A word that decodes is not negative. -/
theorem decode_ok_natCast {w : Word} {i : Instr} (h : decode w = .ok i) : ∃ n : Nat, w = n ∧ decodeNat n = .ok i := by
  rcases lt_or_ge w 0 with hneg | hnn
  · rw [decode_negative hneg] at h
    cases h
  · obtain ⟨n, rfl⟩ := Int.eq_ofNat_of_zero_le hnn
    exact ⟨n, rfl, by rwa [decode_natCast] at h⟩

/-- Settles O2: the digits that decode found are all the digits of the word, so they give it back (R89). -/
theorem encodeOfDecode : Obligations.EncodeOfDecode := by
  intro w i h
  obtain ⟨n, rfl, hn⟩ := decode_ok_natCast h
  obtain ⟨hw, he⟩ := decodeNat_word hn
  exact ⟨hw, congrArg Int.ofNat he⟩

/-! ### The words that do not (R90 to R94) -/

/-- What decode answers for a word whose two low digits are no opcode (R91). -/
theorem decodeNat_unknown {w : Nat} (h : w % 100 ∉ [1, 2, 3, 4, 5, 6, 7, 8, 9, 99]) :
    decodeNat w = .error .unknownOpcode := by
  unfold decodeNat
  split <;> simp_all

/-- What decode does with a word of an opcode with `n` parameters, the last an output parameter if `out` is set: the
checks of R92 to R94 in their order. -/
structure CheckedInOrder (w n : Nat) (out : Bool) (r : Except IllegalReason Instr) : Prop where
  bad : (∃ k, 1 ≤ k ∧ k ≤ n ∧ 3 ≤ digit w (k + 1)) → r = .error .badModeDigit
  immediate : (∀ k, 1 ≤ k → k ≤ n → digit w (k + 1) < 3) → out = true → digit w (n + 1) = 1 →
    r = .error .immediateOutput
  excess : (∀ k, 1 ≤ k → k ≤ n → digit w (k + 1) < 3) → ¬(out = true ∧ digit w (n + 1) = 1) →
    w / 10 ^ (n + 2) ≠ 0 → r = .error .excessDigits
  legal : (∀ k, 1 ≤ k → k ≤ n → digit w (k + 1) < 3) → ¬(out = true ∧ digit w (n + 1) = 1) →
    w / 10 ^ (n + 2) = 0 → ∃ i, r = .ok i ∧ opcodeOf i = w % 100 ∧ paramCount i = n

/-- Where the mode digits are legal and no output is immediate, the check for excess digits is all that is left. -/
theorem CheckedInOrder.of_noExcess {w n : Nat} {out : Bool} {r : Except IllegalReason Instr}
    (bad : (∃ k, 1 ≤ k ∧ k ≤ n ∧ 3 ≤ digit w (k + 1)) → r = .error .badModeDigit)
    (immediate : (∀ k, 1 ≤ k → k ≤ n → digit w (k + 1) < 3) → out = true → digit w (n + 1) = 1 →
      r = .error .immediateOutput)
    (rest : (∀ k, 1 ≤ k → k ≤ n → digit w (k + 1) < 3) → ¬(out = true ∧ digit w (n + 1) = 1) →
      ∃ i, r = noExcess w n i ∧ opcodeOf i = w % 100 ∧ paramCount i = n) :
    CheckedInOrder w n out r := by
  refine ⟨bad, immediate, ?excess, ?legal⟩
  case excess =>
    intro hdigits hout hx
    obtain ⟨i, hr, -, -⟩ := rest hdigits hout
    rw [hr, noExcess_error hx]
  case legal =>
    intro hdigits hout hx
    obtain ⟨i, hr, hop, hn⟩ := rest hdigits hout
    exact ⟨i, by rw [hr, noExcess_ok hx], hop, hn⟩

theorem decodeIIO_bad (mk : Mode → Mode → Mode → Instr) {w : Nat}
    (h : 3 ≤ digit w 2 ∨ 3 ≤ digit w 3 ∨ 3 ≤ digit w 4) : decodeIIO mk w = .error .badModeDigit := by
  rcases inputMode_cases w 1 with ⟨a, ha, ea⟩ | ⟨-, ea⟩
  · rcases inputMode_cases w 2 with ⟨b, hb, eb⟩ | ⟨-, eb⟩
    · have h4 : 3 ≤ digit w 4 := by
        have h2 : digit w 2 < 3 := ha ▸ modeDigit_lt a
        have h3 : digit w 3 < 3 := hb ▸ modeDigit_lt b
        omega
      simp only [decodeIIO, ea, eb, outputMode_bad (k := 3) h4, bind, Except.bind]
    · simp only [decodeIIO, ea, eb, bind, Except.bind]
  · simp only [decodeIIO, ea, bind, Except.bind]

theorem decodeIIO_checked (mk : Mode → Mode → Mode → Instr) {w : Nat} (hop : ∀ a b d, opcodeOf (mk a b d) = w % 100)
    (hn : ∀ a b d, paramCount (mk a b d) = 3) : CheckedInOrder w 3 true (decodeIIO mk w) := by
  refine .of_noExcess ?bad ?immediate ?rest
  case bad =>
    rintro ⟨k, hk1, hk3, hk⟩
    refine decodeIIO_bad mk ?_
    interval_cases k
    · exact .inl hk
    · exact .inr (.inl hk)
    · exact .inr (.inr hk)
  case immediate =>
    intro hdigits _ h4
    obtain ⟨a, ha⟩ := exists_modeDigit (hdigits 1 le_rfl (by decide))
    obtain ⟨b, hb⟩ := exists_modeDigit (hdigits 2 (by decide) (by decide))
    simp only [decodeIIO, inputMode_of_digit ha, inputMode_of_digit hb, outputMode_immediate h4, bind, Except.bind]
  case rest =>
    intro hdigits hout
    obtain ⟨a, ha⟩ := exists_modeDigit (hdigits 1 le_rfl (by decide))
    obtain ⟨b, hb⟩ := exists_modeDigit (hdigits 2 (by decide) (by decide))
    obtain ⟨d, hd⟩ := exists_modeDigit (hdigits 3 (by decide) le_rfl)
    have hw : d.writable = true := writable_of_digit fun h1 => hout ⟨rfl, hd.trans h1⟩
    exact ⟨mk a b d, decodeIIO_of_digits mk ha hb hd hw, hop a b d, hn a b d⟩

theorem decodeII_bad (mk : Mode → Mode → Instr) {w : Nat} (h : 3 ≤ digit w 2 ∨ 3 ≤ digit w 3) :
    decodeII mk w = .error .badModeDigit := by
  rcases inputMode_cases w 1 with ⟨a, ha, ea⟩ | ⟨-, ea⟩
  · have h3 : 3 ≤ digit w 3 := by
      have h2 : digit w 2 < 3 := ha ▸ modeDigit_lt a
      omega
    simp only [decodeII, ea, inputMode_bad (k := 2) h3, bind, Except.bind]
  · simp only [decodeII, ea, bind, Except.bind]

theorem decodeII_checked (mk : Mode → Mode → Instr) {w : Nat} (hop : ∀ a b, opcodeOf (mk a b) = w % 100)
    (hn : ∀ a b, paramCount (mk a b) = 2) : CheckedInOrder w 2 false (decodeII mk w) := by
  refine .of_noExcess ?bad (fun _ hout => nomatch hout) ?rest
  case bad =>
    rintro ⟨k, hk1, hk2, hk⟩
    refine decodeII_bad mk ?_
    interval_cases k
    · exact .inl hk
    · exact .inr hk
  case rest =>
    intro hdigits _
    obtain ⟨a, ha⟩ := exists_modeDigit (hdigits 1 le_rfl (by decide))
    obtain ⟨b, hb⟩ := exists_modeDigit (hdigits 2 (by decide) le_rfl)
    exact ⟨mk a b, decodeII_of_digits mk ha hb, hop a b, hn a b⟩

theorem decodeI_checked (mk : Mode → Instr) {w : Nat} (hop : ∀ a, opcodeOf (mk a) = w % 100)
    (hn : ∀ a, paramCount (mk a) = 1) : CheckedInOrder w 1 false (decodeI mk w) := by
  refine .of_noExcess ?bad (fun _ hout => nomatch hout) ?rest
  case bad =>
    rintro ⟨k, hk1, hk2, hk⟩
    obtain rfl : k = 1 := le_antisymm hk2 hk1
    simp only [decodeI, inputMode_bad hk, bind, Except.bind]
  case rest =>
    intro hdigits _
    obtain ⟨a, ha⟩ := exists_modeDigit (hdigits 1 le_rfl le_rfl)
    exact ⟨mk a, decodeI_of_digits mk ha, hop a, hn a⟩

theorem decodeO_checked (mk : Mode → Instr) {w : Nat} (hop : ∀ d, opcodeOf (mk d) = w % 100)
    (hn : ∀ d, paramCount (mk d) = 1) : CheckedInOrder w 1 true (decodeO mk w) := by
  refine .of_noExcess ?bad ?immediate ?rest
  case bad =>
    rintro ⟨k, hk1, hk2, hk⟩
    obtain rfl : k = 1 := le_antisymm hk2 hk1
    simp only [decodeO, outputMode_bad hk, bind, Except.bind]
  case immediate =>
    intro _ _ h2
    simp only [decodeO, outputMode_immediate h2, bind, Except.bind]
  case rest =>
    intro hdigits hout
    obtain ⟨d, hd⟩ := exists_modeDigit (hdigits 1 le_rfl le_rfl)
    have hw : d.writable = true := writable_of_digit fun h1 => hout ⟨rfl, hd.trans h1⟩
    exact ⟨mk d, decodeO_of_digits mk hd hw, hop d, hn d⟩

theorem noExcess_halt_checked {w : Nat} (hop : w % 100 = 99) : CheckedInOrder w 0 false (noExcess w 0 .halt) :=
  .of_noExcess (fun ⟨_, h1, h0, _⟩ => absurd (h1.trans h0) (by decide)) (fun _ hout => nomatch hout)
    fun _ _ => ⟨.halt, rfl, hop.symm, rfl⟩

/-- Decode makes the checks in order for the word of each of the ten opcodes. -/
theorem decodeNat_checked {w n : Nat} {out : Bool}
    (h : (w % 100, n, out) ∈ [(1, 3, true), (2, 3, true), (3, 1, true), (4, 1, false), (5, 2, false), (6, 2, false),
      (7, 3, true), (8, 3, true), (9, 1, false), (99, 0, false)]) : CheckedInOrder w n out (decodeNat w) := by
  simp only [List.mem_cons, List.not_mem_nil, or_false, Prod.mk.injEq] at h
  rcases h with ⟨hop, rfl, rfl⟩ | ⟨hop, rfl, rfl⟩ | ⟨hop, rfl, rfl⟩ | ⟨hop, rfl, rfl⟩ | ⟨hop, rfl, rfl⟩ |
    ⟨hop, rfl, rfl⟩ | ⟨hop, rfl, rfl⟩ | ⟨hop, rfl, rfl⟩ | ⟨hop, rfl, rfl⟩ | ⟨hop, rfl, rfl⟩
  · exact decodeNat_add hop ▸ decodeIIO_checked .add (fun _ _ _ => hop.symm) fun _ _ _ => rfl
  · exact decodeNat_mul hop ▸ decodeIIO_checked .mul (fun _ _ _ => hop.symm) fun _ _ _ => rfl
  · exact decodeNat_inp hop ▸ decodeO_checked .inp (fun _ => hop.symm) fun _ => rfl
  · exact decodeNat_out hop ▸ decodeI_checked .out (fun _ => hop.symm) fun _ => rfl
  · exact decodeNat_jt hop ▸ decodeII_checked .jt (fun _ _ => hop.symm) fun _ _ => rfl
  · exact decodeNat_jf hop ▸ decodeII_checked .jf (fun _ _ => hop.symm) fun _ _ => rfl
  · exact decodeNat_lt hop ▸ decodeIIO_checked .lt (fun _ _ _ => hop.symm) fun _ _ _ => rfl
  · exact decodeNat_eq hop ▸ decodeIIO_checked .eq (fun _ _ _ => hop.symm) fun _ _ _ => rfl
  · exact decodeNat_arb hop ▸ decodeI_checked .arb (fun _ => hop.symm) fun _ => rfl
  · exact decodeNat_halt hop ▸ noExcess_halt_checked hop

/-- Settles O4: negative, then no opcode, then the three checks of the format (R90 to R94). -/
theorem illegalWordsByReason : Obligations.IllegalWordsByReason := by
  refine ⟨fun w hneg => decode_negative hneg, ?unknown, ?checked⟩
  case unknown =>
    intro w hop
    rw [decode_natCast, decodeNat_unknown hop]
  case checked =>
    intro w n out hshape
    rw [decode_natCast]
    obtain ⟨bad, immediate, excess, legal⟩ := decodeNat_checked hshape
    exact ⟨bad, immediate, excess, legal⟩

/-- Settles O3: each word is the word of its instruction, so `decodeOfEncode` answers for it (R86). -/
theorem sampleWordsDecode : Obligations.SampleWordsDecode :=
  ⟨decodeOfEncode (.add .relative .immediate .relative) rfl, decodeOfEncode (.mul .position .immediate .position) rfl,
    decodeOfEncode (.inp .relative) rfl, decodeOfEncode (.out .immediate) rfl,
    decodeOfEncode (.jt .immediate .relative) rfl, decodeOfEncode (.jf .position .immediate) rfl,
    decodeOfEncode (.lt .relative .relative .position) rfl,
    decodeOfEncode (.eq .position .immediate .relative) rfl, decodeOfEncode (.arb .position) rfl,
    decodeOfEncode .halt rfl⟩

end Sys2Proof
end

section
/-!
PROOFS of the statements about every step: what a move of an engine does to each group of its registers, what the
router, the monitor and the scheduler do to the network's registers, and the invariants that follow.
-/

namespace Sys2Proof.Machine

/-! ### What a cycle does to its engine -/

namespace EngineMove

variable {c : Config} {e e' : Engine} {ev : Event}

theorem straps (h : EngineMove c e e' ev) : e'.straps = e.straps := by
  cases h with
  | trap => rfl
  | move i _ _ _ h => exact h.straps
  | output => rfl
  | handed => rfl

theorem mem (h : EngineMove c e e' ev) :
    e'.mem = e.mem ∨ ∃ a v, inMemory e a = true ∧ e'.mem = e.mem.write a.toNat v ∧ Obtainable c e v := by
  cases h with
  | trap => exact .inl rfl
  | move i _ _ _ h => exact h.mem
  | output => exact .inl rfl
  | handed => exact .inl rfl

theorem inq (h : EngineMove c e e' ev) :
    e'.inq = e.inq ∨ (e.straps.source = .queue ∧ ∃ v, e.inq = v :: e'.inq) := by
  cases h with
  | trap => exact .inl rfl
  | move i _ _ _ h => exact h.inq
  | output => exact .inl rfl
  | handed => exact .inl rfl

/-- The output registers change together, and only in an `out`. -/
theorem outputs (h : EngineMove c e e' ev) :
    (e'.outLog = e.outLog ∧ e'.lastOutput = e.lastOutput)
      ∨ ∃ v, ev = .output v ∧ e'.outLog = e.outLog ++ [v] ∧ e'.lastOutput = some v := by
  cases h with
  | trap => exact .inl ⟨rfl, rfl⟩
  | move i _ _ _ h => exact .inl ⟨h.outLog, h.lastOutput⟩
  | output v => exact .inr ⟨v, rfl, rfl, rfl⟩
  | handed v => exact .inr ⟨v, rfl, rfl, rfl⟩

/-- The fault record is written by a trap and left alone by everything else. -/
theorem faultRecord (h : EngineMove c e e' ev) :
    (∃ tr, TrapOk tr ∧ e' = raise e tr)
      ∨ (e'.life ≠ .faulted ∧ e'.faultCause = e.faultCause ∧ e'.faultReason = e.faultReason
        ∧ e'.faultInfo = e.faultInfo) := by
  cases h with
  | trap tr hok => exact .inl ⟨tr, hok, rfl⟩
  | move i _ _ _ h =>
    refine .inr ⟨?_, h.cause, h.reason, h.info⟩
    rcases h.event with ⟨-, hl⟩ | ⟨-, hl⟩ | ⟨-, hl, -⟩ | ⟨-, hl, -⟩ <;> simp [hl]
  | output => exact .inr ⟨nofun, rfl, rfl, rfl⟩
  | handed => exact .inr ⟨nofun, rfl, rfl, rfl⟩

/-- An engine comes to wait for input under `SUSPEND` only, with `input_failed` set. -/
theorem waiting (h : EngineMove c e e' ev) (hl : e'.life = .waitingForInput) :
    e.straps.starve = .suspend ∧ e'.inputFailed = true := by
  cases h with
  | trap => cases hl
  | move i _ _ _ h =>
    rcases h.event with ⟨-, hl'⟩ | ⟨-, hl'⟩ | ⟨-, -, hs⟩ | ⟨-, hl', -⟩
    · cases hl.symm.trans hl'
    · cases hl.symm.trans hl'
    · exact hs
    · cases hl.symm.trans hl'
  | output => cases hl
  | handed => cases hl

end EngineMove

/-! ### What holds of every engine -/

/-- A property of engines that does not depend on the back of the queue and that every move keeps is kept by a step. -/
theorem step_keeps_engines {P : Engine → Prop} (append : ∀ e q, P e → P { e with inq := e.inq ++ q })
    (move : ∀ {c e e' ev}, e.life ≠ .halted → e.life ≠ .faulted → EngineMove c e e' ev → P e → P e') {s t : State}
    (hs : ∀ e ∈ s.eng, P e) (h : step s = .next t) : ∀ e ∈ t.eng, P e := by
  intro f' hf'
  obtain ⟨j, hj⟩ := List.mem_iff_getElem?.mp hf'
  obtain ⟨f, g, q, hf, rfl, rfl | ⟨-, hhalt, hfault, ev, -, hmove⟩⟩ := step_engine_of h hj
  · exact append _ _ (hs _ (List.mem_of_getElem? hf))
  · exact append _ _ (move hhalt hfault hmove (hs _ (List.mem_of_getElem? hf)))

/-- Settles O38: what a step does to an engine that `cursor` does not name is append to its queue. -/
theorem enginesAreIsolated : Obligations.EnginesAreIsolated := by
  intro s t j f h hj hf
  obtain ⟨g, q, hq, rfl | ⟨hcur, -⟩⟩ := step_engine_at h hf
  · exact ⟨q, hq⟩
  · exact absurd hcur hj

/-- Settles O46: an engine that moves was not terminal. -/
theorem terminalStatesAreFinal : Obligations.TerminalStatesAreFinal := by
  intro s t j f h hf hterm
  obtain ⟨g, q, hq, rfl | ⟨-, hhalt, hfault, -⟩⟩ := step_engine_at h hf
  · exact ⟨q, hq⟩
  · exact absurd hterm (not_or.mpr ⟨hfault, hhalt⟩)

theorem MemoryOk.write {e e' : Engine} {a : Int} {v : Word} (he : MemoryOk e) (ha : inMemory e a = true)
    (hm : e'.mem = e.mem.write a.toNat v) (hs : e'.straps = e.straps) : MemoryOk e' := by
  obtain ⟨hwf, hlt⟩ := he
  rw [MemoryOk, hm, hs]
  refine ⟨write_wf _ _ hwf, fun p hp => ?_⟩
  rcases mem_write hp with hold | rfl
  · exact hlt p hold
  · have := inMemory_eq_true_iff.mp ha
    show a.toNat < e.straps.capacity
    omega

theorem MemoryOk.move {c : Config} {e e' : Engine} {ev : Event} (h : EngineMove c e e' ev) (he : MemoryOk e) :
    MemoryOk e' := by
  rcases h.mem with hm | ⟨a, v, ha, hm, -⟩
  · rw [MemoryOk, hm, h.straps]
    exact he
  · exact he.write ha hm h.straps

/-- Settles O42: a move writes at most one cell, at an address that exists. -/
theorem memoryStaysCanonical : Obligations.MemoryStaysCanonical :=
  fun _ _ hs h => step_keeps_engines (fun _ _ he => he) (fun _ _ hmove he => he.move hmove) hs h

theorem FaultRecordOk.raise (e : Engine) {tr : Trap} (h : TrapOk tr) : FaultRecordOk (raise e tr) := by
  obtain ⟨-, hreason⟩ := h
  simp [FaultRecordOk, hreason]

theorem FaultRecordOk.move {c : Config} {e e' : Engine} {ev : Event} (h : EngineMove c e e' ev)
    (hfault : e.life ≠ .faulted) (he : FaultRecordOk e) : FaultRecordOk e' := by
  rcases h.faultRecord with ⟨tr, hok, rfl⟩ | ⟨hl, hc, hr, hi⟩
  · exact .raise e hok
  · obtain ⟨hlife, hreason, hinfo⟩ := he
    have hnone : e.faultCause = none := not_not.mp fun hne => hfault (hlife.mpr hne)
    rw [FaultRecordOk, hc, hr, hi]
    exact ⟨by simp [hl, hnone], hreason, hinfo⟩

theorem LastOutputOk.move {c : Config} {e e' : Engine} {ev : Event} (h : EngineMove c e e' ev) (he : LastOutputOk e) :
    LastOutputOk e' := by
  rcases h.outputs with ⟨hlog, hlast⟩ | ⟨v, -, hlog, hlast⟩
  · rw [LastOutputOk, hlog, hlast]
    exact he
  · rw [LastOutputOk, hlog, hlast, List.getLast?_concat]

theorem WaitingOk.move {c : Config} {e e' : Engine} {ev : Event} (h : EngineMove c e e' ev) : WaitingOk e' := by
  intro hl
  rw [h.straps]
  exact h.waiting hl

/-- Settles O44: an engine that moves was not `Faulted`, so its record was empty before. -/
theorem statusRegistersAgree : Obligations.StatusRegistersAgree := by
  refine fun s t hs h => step_keeps_engines (fun _ _ he => he) ?_ hs h
  rintro c e e' ev - hfault hmove ⟨hrecord, hlast, -⟩
  exact ⟨hrecord.move hmove hfault, hlast.move hmove, .move hmove⟩

/-- Settles O36: the move of the running engine appends at most the value of its event. -/
theorem outputStreamOnlyGrows : Obligations.OutputStreamOnlyGrows := by
  intro s t j f h hf
  obtain ⟨g, q, hq, rfl | ⟨hj, -, -, ev, hr, hmove⟩⟩ := step_engine_at h hf
  · exact ⟨_, hq, .inl rfl⟩
  · refine ⟨_, hq, ?_⟩
    rcases hmove.outputs with ⟨hlog, -⟩ | ⟨v, rfl, hlog, -⟩
    · exact .inl hlog
    · exact .inr ⟨v, hlog, hj, hr⟩

/-! ### The configuration -/

theorem QueuesGrow.straps {s t : State} (h : QueuesGrow s t) :
    t.eng.map (fun e => e.straps) = s.eng.map (fun e => e.straps) := by
  refine List.ext_getElem? fun j => ?_
  rw [List.getElem?_map, List.getElem?_map]
  cases hf : s.eng[j]? with
  | none => rw [List.getElem?_eq_none (h.length ▸ List.getElem?_eq_none_iff.mp hf)]
  | some f =>
    obtain ⟨q, hq⟩ := h.engine j f hf
    rw [hq]
    rfl

/-- Replacing the running engine by one with its straps leaves every engine's straps. -/
theorem setCurrent_straps {s : State} {e e' : Engine} (h : s.current = some e) (hs : e'.straps = e.straps) :
    (s.setCurrent e').eng.map (fun e => e.straps) = s.eng.map (fun e => e.straps) := by
  refine List.ext_getElem? fun j => ?_
  rw [List.getElem?_map, List.getElem?_map, setCurrent_getElem h]
  split_ifs with hj
  · rw [hj, show s.eng[s.cursor]? = some e from h, Option.map_some, Option.map_some, hs]
  · rfl

/-- Settles O37: a step makes queues longer, and moves the running engine, whose straps it keeps. -/
theorem configurationIsConstant : Obligations.ConfigurationIsConstant := by
  intro s t h
  rcases step_engine h with hg | ⟨e, e', ev, he, -, -, hg, -, hmove⟩
  · exact ⟨hg.cfg, hg.straps⟩
  · exact ⟨hg.cfg, hg.straps.trans (setCurrent_straps he hmove.straps)⟩

/-! ### The status of the network -/

/-- `t` has the status of the network that `s` has. -/
def SameNetStatus (s t : State) : Prop :=
  t.netState = s.netState ∧ t.netAnswer = s.netAnswer ∧ t.netFault = s.netFault

/-- From `s` to `t` the router has stopped the network. -/
def NetStopped (s t : State) : Prop := t.netState = .faulted ∧ t.netAnswer = s.netAnswer ∧ t.netFault ≠ none

theorem deliver_status (s : State) (i : Nat) (d x y : Word) :
    SameNetStatus s (deliver s i d x y) ∨ NetStopped s (deliver s i d x y) := by
  rcases deliver_cases s i d x y with ⟨-, h⟩ | ⟨-, -, -, h⟩ | ⟨-, -, h⟩ <;> rw [h]
  · exact .inl ⟨rfl, rfl, rfl⟩
  · exact .inl ⟨rfl, rfl, rfl⟩
  · exact .inr ⟨rfl, rfl, nofun⟩

theorem route_status (s : State) (i : Nat) (v : Word) : SameNetStatus s (route s i v) ∨ NetStopped s (route s i v) := by
  rcases route_cases s i v with ⟨d, x, -, h⟩ | ⟨-, h⟩ <;> rw [h]
  · exact deliver_status { s with acc := s.acc.set i [] } i d x v
  · exact .inl ⟨rfl, rfl, rfl⟩

/-- An instruction leaves the status of the network alone, unless its output stops it. -/
theorem Ended.status {s t : State} {i : Instr} {e : Engine} (h : Ended s i e t) :
    SameNetStatus s t ∨ (s.cfg.topology = .network ∧ NetStopped s t ∧ ∃ v, t.reply = some (.output v)) := by
  cases h with
  | trap => exact .inl ⟨rfl, rfl, rfl⟩
  | move => exact .inl ⟨rfl, rfl, rfl⟩
  | output v =>
    rcases acceptOutput_cases s (outputEngine e v) v with ⟨-, h⟩ | ⟨-, -, h⟩ | ⟨-, hnet, h⟩ <;> rw [h]
    · exact .inl ⟨rfl, rfl, rfl⟩
    · exact .inl ⟨rfl, rfl, rfl⟩
    · exact (route_status (s.setCurrent (outputEngine e v)) s.cursor v).imp id fun hstop => ⟨hnet, hstop, v, rfl⟩

theorem cycle_status {s t : State} (h : cycle s = .next t) :
    SameNetStatus s t ∨ (s.cfg.topology = .network ∧ NetStopped s t ∧ ∃ v, t.reply = some (.output v)) := by
  obtain ⟨e, he⟩ := cycle_current h
  rcases cycle_ended he h with ⟨-, rfl⟩ | ⟨-, ⟨tr, -, rfl⟩ | ⟨i, -, hend⟩⟩
  · exact .inl ⟨rfl, rfl, rfl⟩
  · exact .inl ⟨rfl, rfl, rfl⟩
  · exact hend.status

theorem NetworkStatusOk.same {s t : State} (hs : NetworkStatusOk s) (h : SameNetStatus s t) : NetworkStatusOk t := by
  obtain ⟨hstate, hanswer, hfault⟩ := h
  rw [NetworkStatusOk, hstate, hanswer, hfault]
  exact hs

theorem NetworkStatusOk.answer_none {s : State} (hs : NetworkStatusOk s) (h : s.netState ≠ .terminated) :
    s.netAnswer = none :=
  have ⟨hterminated, _⟩ := hs
  not_not.mp fun hne => h (hterminated.mpr hne)

theorem NetworkStatusOk.stopped {s t : State} (hs : NetworkStatusOk s) (hr : s.netState ≠ .terminated)
    (h : NetStopped s t) : NetworkStatusOk t := by
  obtain ⟨hstate, hanswer, hfault⟩ := h
  rw [NetworkStatusOk, hstate, hanswer, hs.answer_none hr]
  simp [hfault]

theorem NetworkStatusOk.endOfPass {s : State} (hs : NetworkStatusOk s) (hr : s.netState = .running) :
    NetworkStatusOk (endOfPass s) := by
  rcases endOfPass_cases s with h | ⟨x, y, -, -, -, h⟩ | ⟨x, y, -, -, -, h⟩ <;> rw [h]
  · exact hs
  · obtain ⟨-, hfaulted⟩ := hs
    have hfault : s.netFault = none := not_not.mp fun hne => by simpa [hr] using hfaulted.mpr hne
    simp [NetworkStatusOk, hfault]
  · exact hs.same ⟨rfl, rfl, rfl⟩

theorem NetworkStatusOk.afterCycle {s : State} (hs : NetworkStatusOk s)
    (hr : s.reply = some .fault → s.netState ≠ .terminated) : NetworkStatusOk (afterCycle s) := by
  rcases afterCycle_cases s with h | ⟨hf, e, -, h⟩ | ⟨-, -, -, h⟩ | ⟨hrun, -, -, h⟩ <;> rw [h]
  · exact hs
  · exact hs.stopped (hr hf) ⟨rfl, rfl, nofun⟩
  · exact hs.same ⟨rfl, rfl, rfl⟩
  · exact NetworkStatusOk.endOfPass (s := { s with cursor := 0 }) hs hrun

/-- Settles O45: only a running network makes a step, and its two ends are written with their registers. -/
theorem networkStatusAgrees : Obligations.NetworkStatusAgrees := by
  intro s t hs h
  rcases step_cases h with ⟨hsingle, hc⟩ | ⟨-, hrun, u, hc, rfl⟩ | ⟨-, -, rfl⟩
  · rcases cycle_status hc with hsame | ⟨hnet, -⟩
    · exact hs.same hsame
    · cases hsingle.symm.trans hnet
  · rcases cycle_status hc with hsame | ⟨-, hstop, v, hv⟩
    · refine (hs.same hsame).afterCycle fun _ => ?_
      obtain ⟨hstate, -⟩ := hsame
      rw [hstate, hrun]
      decide
    · refine (hs.stopped (by rw [hrun]; decide) hstop).afterCycle fun hf => ?_
      cases hv.symm.trans hf
  · exact hs

end Sys2Proof.Machine
end

section
/-!
PROOFS of the statement that values stay in range (spec/41_arithmetic.md R133, spec/10_state.md R21): a move of an
engine, then each operation of the network, keeps `ValuesInv`.
-/

namespace Sys2Proof.Machine

/-! ### The values of an engine -/

section
variable {c : Config} {e e' : Engine} {ev : Event}

theorem EngineValuesOk.read (he : EngineValuesOk c e) (hw : legalWidth c = true) (n : Nat) :
    inRange c (e.mem.read n) = true := by
  rcases read_mem e.mem n with h0 | hmem
  · rw [h0]
    exact inRange_of_small hw (by decide) (by decide)
  · obtain ⟨hcells, -⟩ := he
    exact hcells _ hmem

theorem EngineValuesOk.obtainable (he : EngineValuesOk c e) (hw : legalWidth c = true) {v : Word}
    (hv : Obtainable c e v) : inRange c v = true := by
  rcases hv with hv | hv | rfl | rfl | rfl | ⟨n, rfl⟩
  · exact hv
  · obtain ⟨-, -, -, hinq, -⟩ := he
    exact hinq v hv
  · exact inRange_of_small hw (by decide) (by decide)
  · exact inRange_of_small hw (by decide) (by decide)
  · exact inRange_of_small hw (by decide) (by decide)
  · exact he.read hw n

/-- Sequential advance from an address that exists needs no overflow check (R21). -/
theorem inRange_advance (hw : legalWidth c = true) (hc : legalCapacity c e.straps.capacity = true)
    (hip : inMemory e e.ip = true) {n : Nat} (hn : n ≤ 4) : inRange c (e.ip + n) = true := by
  obtain ⟨h0, hlt⟩ := inMemory_eq_true_iff.mp hip
  exact inRange_of_capacity hw hc (by omega) (by omega)

theorem lengthOf_le (i : Instr) : lengthOf i ≤ 4 := by
  cases i <;> simp [lengthOf, paramCount]

theorem forall_append_singleton {P : Word → Prop} {l : List Word} {v : Word} (hl : ∀ u ∈ l, P u) (hv : P v) :
    ∀ u ∈ l ++ [v], P u :=
  List.forall_mem_append.mpr ⟨hl, List.forall_mem_singleton.mpr hv⟩

theorem EngineValuesOk.localMove {i : Instr} (he : EngineValuesOk c e) (hw : legalWidth c = true)
    (hc : legalCapacity c e.straps.capacity = true) (hip : inMemory e e.ip = true) (h : LocalMove c i e e' ev) :
    EngineValuesOk c e' := by
  have ⟨hmem, hipOk, hrb, hinq, hlog, hhanded, hlast⟩ := he
  refine ⟨?mem, ?ip, ?rb, ?inq, ?outLog, ?handed, ?lastOutput⟩
  case mem =>
    rcases h.mem with hm | ⟨a, v, -, hm, hv⟩ <;> rw [hm]
    · exact hmem
    · intro p hp
      rcases mem_write hp with hold | rfl
      · exact hmem p hold
      · exact he.obtainable hw hv
  case ip =>
    rcases h.ip with hi | hi | ⟨n, hi⟩ <;> rw [hi]
    · exact hipOk
    · exact inRange_advance hw hc hip (lengthOf_le i)
    · exact he.read hw n
  case rb =>
    rcases h.rb with hr | ⟨-, hr⟩
    · rwa [hr]
    · exact hr
  case inq =>
    rcases h.inq with hq | ⟨-, v, hq⟩
    · rwa [hq]
    · exact fun u hu => hinq u (hq ▸ List.mem_cons_of_mem v hu)
  case outLog => rwa [h.outLog]
  case handed => rwa [h.handed]
  case lastOutput => rwa [h.lastOutput]

theorem EngineValuesOk.outputEngine {v : Word} (he : EngineValuesOk c e) (hw : legalWidth c = true)
    (hc : legalCapacity c e.straps.capacity = true) (hip : inMemory e e.ip = true) (hv : inRange c v = true) :
    EngineValuesOk c (outputEngine e v) := by
  obtain ⟨hmem, -, hrb, hinq, hlog, hhanded, -⟩ := he
  exact ⟨hmem, inRange_advance (n := 2) hw hc hip (by decide), hrb, hinq, forall_append_singleton hlog hv, hhanded,
    fun u hu => Option.some.inj hu ▸ hv⟩

theorem EngineValuesOk.handed {v : Word} (he : EngineValuesOk c e) (hv : inRange c v = true) :
    EngineValuesOk c { e with handed := e.handed ++ [v] } := by
  obtain ⟨hmem, hip, hrb, hinq, hlog, hhanded, hlast⟩ := he
  exact ⟨hmem, hip, hrb, hinq, hlog, forall_append_singleton hhanded hv, hlast⟩

theorem EngineValuesOk.append (he : EngineValuesOk c e) {x y : Word} (hx : inRange c x = true)
    (hy : inRange c y = true) : EngineValuesOk c { e with inq := e.inq ++ [x, y] } := by
  obtain ⟨hmem, hip, hrb, hinq, hlog, hhanded, hlast⟩ := he
  refine ⟨hmem, hip, hrb, List.forall_mem_append.mpr ⟨hinq, ?_⟩, hlog, hhanded, hlast⟩
  exact List.forall_mem_cons.mpr ⟨hx, List.forall_mem_singleton.mpr hy⟩

theorem EngineValuesOk.move (he : EngineValuesOk c e) (hw : legalWidth c = true)
    (hc : legalCapacity c e.straps.capacity = true) (h : EngineMove c e e' ev) : EngineValuesOk c e' := by
  cases h with
  | trap => exact he
  | move i _ _ hip h => exact he.localMove hw hc hip h
  | output v hip hv =>
    obtain ⟨n, rfl⟩ := hv
    exact he.outputEngine hw hc hip (he.read hw n)
  | handed v hip hv =>
    obtain ⟨n, rfl⟩ := hv
    exact (he.outputEngine hw hc hip (he.read hw n)).handed (he.read hw n)

end

/-! ### The shape of the machine -/

theorem shapeOk_single {s : State} (h : s.cfg.topology = .single) :
    ShapeOk s ↔ s.eng.length = 1 ∧ s.cursor = 0 ∧ ∀ e ∈ s.eng, e.straps.source = .callback → e.inq = [] := by
  simp only [ShapeOk, h]

theorem shapeOk_network {s : State} (h : s.cfg.topology = .network) :
    ShapeOk s ↔ legalNetwork s.cfg = true ∧ s.eng.length = s.cfg.nEngines ∧ s.acc.length = s.cfg.nEngines
      ∧ s.cursor < s.cfg.nEngines ∧ (∀ a ∈ s.acc, a.length ≤ 2) ∧ ∀ e ∈ s.eng, NetworkStraps e := by
  simp only [ShapeOk, h]

/-- Every engine of the machine after the running one was replaced has what all had and the new one has. -/
theorem forall_mem_setCurrent {P : Engine → Prop} {s : State} {e' : Engine} (hs : ∀ e ∈ s.eng, P e) (h : P e') :
    ∀ e ∈ (s.setCurrent e').eng, P e := by
  intro e he
  rcases mem_setCurrent he with rfl | hold
  · exact h
  · exact hs e hold

theorem forall_mem_enqueue {P : Engine → Prop} {s : State} {x y : Word} (hs : ∀ e ∈ s.eng, P e)
    (h : ∀ e, P e → P { e with inq := e.inq ++ [x, y] }) (d : Nat) : ∀ e ∈ (enqueue s d x y).eng, P e := by
  intro e he
  obtain ⟨j, hj⟩ := List.mem_iff_getElem?.mp he
  rw [enqueue_eng, List.getElem?_modify] at hj
  obtain ⟨f, hf, rfl⟩ := Option.map_eq_some_iff.mp hj
  have hP := hs f (List.mem_of_getElem? hf)
  split
  · exact h f hP
  · exact hP

theorem forall_mem_setAcc {P : List Word → Prop} {s : State} {a : List Word} (hs : ∀ b ∈ s.acc, P b) (h : P a)
    (i : Nat) : ∀ b ∈ s.acc.set i a, P b := by
  intro b hb
  rcases List.mem_or_eq_of_mem_set hb with hold | rfl
  · exact hs b hold
  · exact h

/-- What holds of every accumulator and of the empty one holds of that of any number. -/
theorem forall_getD_acc {P : List Word → Prop} {s : State} (hs : ∀ b ∈ s.acc, P b) (h : P []) (i : Nat) :
    P (s.acc.getD i []) := by
  rw [List.getD_eq_getElem?_getD]
  cases ha : s.acc[i]? with
  | none => exact h
  | some a => exact hs a (List.mem_of_getElem? ha)

namespace ValuesInv

variable {s t : State} {e e' : Engine}

/-! ### The operations of the single engine -/

theorem answer (hs : ValuesInv s) (ev : Event) : ValuesInv (s.answer ev) := hs

theorem setCurrent {ev : Event} (hs : ValuesInv s) (hcur : s.current = some e) (h : EngineMove s.cfg e e' ev) :
    ValuesInv (s.setCurrent e') := by
  obtain ⟨⟨hw, hcap⟩, hshape, hnet, heng⟩ := hs
  have hmem := current_mem hcur
  have hok : EngineValuesOk s.cfg e' := (heng e hmem).move hw (hcap e hmem) h
  refine ⟨⟨hw, forall_mem_setCurrent hcap ?capacity⟩, ?shape, hnet, forall_mem_setCurrent heng hok⟩
  case capacity => exact h.straps ▸ hcap e hmem
  case shape =>
    cases htop : s.cfg.topology with
    | single =>
      obtain ⟨hlen, hcursor, hqueue⟩ := (shapeOk_single htop).mp hshape
      refine (shapeOk_single (s := s.setCurrent e') htop).mpr ⟨by simpa using hlen, hcursor, ?_⟩
      refine forall_mem_setCurrent hqueue fun hsource => ?_
      rw [h.straps] at hsource
      rcases h.inq with hq | ⟨hq, -⟩
      · exact hq.trans (hqueue e hmem hsource)
      · cases hsource.symm.trans hq
    | network =>
      obtain ⟨hlegal, hlen, hacc, hcursor, hshort, hstraps⟩ := (shapeOk_network htop).mp hshape
      refine (shapeOk_network (s := s.setCurrent e') htop).mpr ⟨hlegal, by simpa using hlen, hacc, hcursor, hshort, ?_⟩
      refine forall_mem_setCurrent hstraps ?_
      rw [NetworkStraps, h.straps]
      exact hstraps e hmem

/-! ### The operations of the network -/

theorem failNetwork (hs : ValuesInv s) (f : NetFault) : ValuesInv (failNetwork s f) := hs

theorem log (hs : ValuesInv s) (l : List NetEvent) : ValuesInv { s with netLog := l } := hs

theorem setCursor (hs : ValuesInv s) (htop : s.cfg.topology = .network) {n : Nat} (hn : n < s.cfg.nEngines) :
    ValuesInv { s with cursor := n } := by
  obtain ⟨hparams, hshape, hnet, heng⟩ := hs
  obtain ⟨hlegal, hlen, hacc, -, hshort, hstraps⟩ := (shapeOk_network htop).mp hshape
  refine ⟨hparams, ?_, hnet, heng⟩
  exact (shapeOk_network (s := { s with cursor := n }) htop).mpr ⟨hlegal, hlen, hacc, hn, hshort, hstraps⟩

theorem setAcc (hs : ValuesInv s) (htop : s.cfg.topology = .network) {a : List Word} (hlen : a.length ≤ 2)
    (ha : ∀ v ∈ a, inRange s.cfg v = true) (i : Nat) : ValuesInv { s with acc := s.acc.set i a } := by
  obtain ⟨hparams, hshape, ⟨hacc, hheld, hlast, hanswer⟩, heng⟩ := hs
  obtain ⟨hlegal, heng', hacc', hcursor, hshort, hstraps⟩ := (shapeOk_network htop).mp hshape
  refine ⟨hparams, ?_, ⟨forall_mem_setAcc hacc ha i, hheld, hlast, hanswer⟩, heng⟩
  exact (shapeOk_network (s := { s with acc := s.acc.set i a }) htop).mpr
    ⟨hlegal, heng', List.length_set.trans hacc', hcursor, forall_mem_setAcc hshort hlen i, hstraps⟩

theorem hold (hs : ValuesInv s) {x y : Word} (hx : inRange s.cfg x = true) (hy : inRange s.cfg y = true) :
    ValuesInv { s with natHeld := some (x, y) } := by
  obtain ⟨hparams, hshape, ⟨hacc, -, hlast, hanswer⟩, heng⟩ := hs
  refine ⟨hparams, hshape, ⟨hacc, fun x' y' h => ?_, hlast, hanswer⟩, heng⟩
  obtain ⟨rfl, rfl⟩ := Prod.mk.inj (Option.some.inj h)
  exact ⟨hx, hy⟩

theorem enqueue (hs : ValuesInv s) (htop : s.cfg.topology = .network) (d : Nat) {x y : Word}
    (hx : inRange s.cfg x = true) (hy : inRange s.cfg y = true) : ValuesInv (enqueue s d x y) := by
  obtain ⟨⟨hw, hcap⟩, hshape, hnet, heng⟩ := hs
  obtain ⟨hlegal, hlen, hacc, hcursor, hshort, hstraps⟩ := (shapeOk_network htop).mp hshape
  refine ⟨⟨hw, forall_mem_enqueue hcap (fun _ h => h) d⟩, ?_, hnet,
    forall_mem_enqueue heng (fun _ h => h.append hx hy) d⟩
  exact (shapeOk_network (s := Machine.enqueue s d x y) htop).mpr
    ⟨hlegal, by simpa using hlen, hacc, hcursor, hshort, forall_mem_enqueue hstraps (fun _ h => h) d⟩

theorem deliver (hs : ValuesInv s) (htop : s.cfg.topology = .network) (i : Nat) (d : Word) {x y : Word}
    (hx : inRange s.cfg x = true) (hy : inRange s.cfg y = true) : ValuesInv (deliver s i d x y) := by
  rcases deliver_cases s i d x y with ⟨-, h⟩ | ⟨-, -, -, h⟩ | ⟨-, -, h⟩ <;> rw [h]
  · exact (hs.log _).hold hx hy
  · exact (hs.log _).enqueue htop _ hx hy
  · exact hs.failNetwork _

theorem route (hs : ValuesInv s) (htop : s.cfg.topology = .network) (i : Nat) {v : Word}
    (hv : inRange s.cfg v = true) : ValuesInv (route s i v) := by
  have ⟨_, hshape, ⟨haccs, _⟩, _⟩ := hs
  have ⟨_, _, _, _, hshorts, _⟩ := (shapeOk_network htop).mp hshape
  have hshort : (s.acc.getD i []).length ≤ 2 := forall_getD_acc hshorts (by simp) i
  have hacc : ∀ u ∈ s.acc.getD i [], inRange s.cfg u = true := forall_getD_acc haccs (by simp) i
  rcases route_cases s i v with ⟨d, x, ha, h⟩ | ⟨hne, h⟩ <;> rw [h]
  · have hx : inRange s.cfg x = true := hacc x (ha ▸ by simp)
    exact (hs.setAcc htop (by simp) (by simp) i).deliver htop i d hx hv
  · have hlen : (s.acc.getD i [] ++ [v]).length ≤ 2 := by
      rw [List.length_append, List.length_singleton]
      omega
    exact hs.setAcc htop hlen (forall_append_singleton hacc hv) i

theorem endOfPass (hs : ValuesInv s) (htop : s.cfg.topology = .network) : ValuesInv (endOfPass s) := by
  have ⟨hparams, hshape, ⟨hacc, hheld, hlast, hanswer⟩, heng⟩ := hs
  rcases endOfPass_cases s with h | ⟨x, y, -, hxy, -, h⟩ | ⟨x, y, -, hxy, -, h⟩ <;> rw [h]
  · exact hs
  · exact ⟨hparams, hshape, ⟨hacc, hheld, hlast, fun _ h => Option.some.inj h ▸ (hheld x y hxy).2⟩, heng⟩
  · obtain ⟨hx, hy⟩ := hheld x y hxy
    refine enqueue (s := { s with natLastY := some y, netLog := _ }) ?_ htop _ hx hy
    exact ⟨hparams, hshape, ⟨hacc, hheld, fun _ h => Option.some.inj h ▸ hy, hanswer⟩, heng⟩

theorem afterCycle (hs : ValuesInv s) (htop : s.cfg.topology = .network) : ValuesInv (afterCycle s) := by
  have ⟨_, hshape, _, _⟩ := hs
  have ⟨_, _, _, hcursor, _, _⟩ := (shapeOk_network htop).mp hshape
  rcases afterCycle_cases s with h | ⟨-, e, -, h⟩ | ⟨-, -, hne, h⟩ | ⟨-, -, -, h⟩ <;> rw [h]
  · exact hs
  · exact hs.failNetwork _
  · exact hs.setCursor htop (by omega)
  · exact (hs.setCursor htop (by omega)).endOfPass htop

/-! ### The cycle -/

theorem ended {i : Instr} (hs : ValuesInv s) (hcur : s.current = some e) (hip : inMemory e e.ip = true)
    (h : Ended s i e t) : ValuesInv t := by
  cases h with
  | trap tr hok => exact (hs.setCurrent hcur (.trap tr hok)).answer _
  | move e' ev h => exact (hs.setCurrent hcur (.move i e' ev hip h)).answer _
  | output v a hi hv =>
    have hout : ValuesInv (s.setCurrent (outputEngine e v)) := hs.setCurrent hcur (.output v hip hv)
    rcases acceptOutput_cases s (outputEngine e v) v with ⟨-, h⟩ | ⟨-, -, h⟩ | ⟨-, htop, h⟩ <;> rw [h]
    · exact hout.answer _
    · exact (hs.setCurrent hcur (.handed v hip hv)).answer _
    · obtain ⟨n, rfl⟩ := hv
      obtain ⟨⟨hw, -⟩, -, -, heng⟩ := hs
      exact (hout.route htop s.cursor ((heng e (current_mem hcur)).read hw n)).answer _

theorem cycle (hs : ValuesInv s) (h : cycle s = .next t) : ValuesInv t := by
  obtain ⟨e, he⟩ := cycle_current h
  rcases cycle_ended he h with ⟨-, rfl⟩ | ⟨-, ⟨tr, hok, rfl⟩ | ⟨i, hip, hend⟩⟩
  · exact hs.answer _
  · exact (hs.setCurrent he (.trap tr hok)).answer _
  · exact hs.ended he hip hend

end ValuesInv

/-- Settles O43: a cycle keeps the values and the shape, and so does the scheduler's work after it. -/
theorem valuesStayInRange : Obligations.ValuesStayInRange := by
  intro s t hs h
  rcases step_cases h with ⟨-, hc⟩ | ⟨htop, -, u, hc, rfl⟩ | ⟨-, -, rfl⟩
  · exact hs.cycle hc
  · exact (hs.cycle hc).afterCycle (by rw [cycle_cfg hc]; exact htop)
  · exact hs

end Sys2Proof.Machine
end

section
/-!
PROOFS of the statements about each instruction (spec/41_arithmetic.md to spec/45_base_halt.md): what an instruction
does once every address it accesses exists, as one function of the instruction, and the statements read off it.
-/

namespace Sys2Proof.Machine

/-! ### The effect of an instruction -/

/-- The engine `add`, `mul`, `lt` and `eq` leave when they write `v` to `dst`. -/
def computeEngine (e : Engine) (dst : Int) (v : Word) : Engine :=
  { e with life := .running, mem := e.mem.write dst.toNat v, ip := e.ip + 4 }

/-- What an instruction of the engine `e` does once every address it accesses exists: the right sides of `exec_add` to
`exec_halt`, tied to `exec` by `exec_eq_effect`. -/
def effect (s : State) (e : Engine) : Instr → State
  | .add a b d =>
    if inRange s.cfg (operandValue e a 1 + operandValue e b 2) then
      after s (computeEngine e (paramAddress e d 3) (operandValue e a 1 + operandValue e b 2)) .complete
    else takeTrap s e (overflow (operandValue e a 1 + operandValue e b 2))
  | .mul a b d =>
    if inRange s.cfg (operandValue e a 1 * operandValue e b 2) then
      after s (computeEngine e (paramAddress e d 3) (operandValue e a 1 * operandValue e b 2)) .complete
    else takeTrap s e (overflow (operandValue e a 1 * operandValue e b 2))
  | .inp d => inputEffect s e (paramAddress e d 1).toNat
  | .out a =>
    (acceptOutput s (outputEngine e (operandValue e a 1)) (operandValue e a 1)).answer (.output (operandValue e a 1))
  | .jt a b =>
    after s { e with
      life := .running, ip := if operandValue e a 1 ≠ 0 then operandValue e b 2 else e.ip + 3 } .complete
  | .jf a b =>
    after s { e with
      life := .running, ip := if operandValue e a 1 = 0 then operandValue e b 2 else e.ip + 3 } .complete
  | .lt a b d =>
    after s (computeEngine e (paramAddress e d 3) (if operandValue e a 1 < operandValue e b 2 then 1 else 0)) .complete
  | .eq a b d =>
    after s (computeEngine e (paramAddress e d 3) (if operandValue e a 1 = operandValue e b 2 then 1 else 0)) .complete
  | .arb a =>
    if inRange s.cfg (e.rb + operandValue e a 1) then
      after s { e with life := .running, rb := e.rb + operandValue e a 1, ip := e.ip + 2 } .complete
    else takeTrap s e (overflow (e.rb + operandValue e a 1))
  | .halt => after s { e with life := .halted, ip := e.ip + 1 } .halt

section
variable {s : State} {e : Engine} {i : Instr}

/-- Where every address exists, `exec` is the effect. -/
theorem exec_of_legal (h : s.current = some e) (hi : i.wellFormed = true) (hf : firstIllegal e i = none) :
    exec i s = .next (effect s e i) := by
  cases i with
  | add a b d =>
    simp only [exec_add h hi, hf, effect]
    split <;> rfl
  | mul a b d =>
    simp only [exec_mul h hi, hf, effect]
    split <;> rfl
  | inp d => simp only [exec_inp h hi, hf, effect]
  | out a => simp only [exec_out h, hf, effect, outputEngine]
  | jt a b => simp only [exec_jt h, hf, effect]
  | jf a b => simp only [exec_jf h, hf, effect]
  | lt a b d => simp only [exec_lt h hi, hf, effect, computeEngine]
  | eq a b d => simp only [exec_eq h hi, hf, effect, computeEngine]
  | arb a =>
    simp only [exec_arb h, hf, effect]
    split <;> rfl
  | halt => exact exec_halt h

/-- Where some address does not exist, `exec` is the trap of the first of them. -/
theorem exec_of_illegal {x : Int} (h : s.current = some e) (hi : i.wellFormed = true)
    (hf : firstIllegal e i = some x) : exec i s = .next (takeTrap s e (illegalAddress x)) := by
  cases i with
  | add a b d => simp only [exec_add h hi, hf]
  | mul a b d => simp only [exec_mul h hi, hf]
  | inp d => simp only [exec_inp h hi, hf]
  | out a => simp only [exec_out h, hf]
  | jt a b => simp only [exec_jt h, hf]
  | jf a b => simp only [exec_jf h, hf]
  | lt a b d => simp only [exec_lt h hi, hf]
  | eq a b d => simp only [exec_eq h hi, hf]
  | arb a => simp only [exec_arb h, hf]
  | halt => cases hf

/-- An instruction of an engine whose addresses all exist. -/
theorem exec_eq_effect (i : Instr) (h : s.current = some e) (hi : i.wellFormed = true) (ha : Addressable e i) :
    exec i s = .next (effect s e i) :=
  exec_of_legal h hi ((addressable_iff e i).mp ha)

end

/-- Settles O9: the parameters are resolved before anything else is done, the first address in the order of `accesses`
first (R103, R105, R108). -/
theorem illegalAddressFirstMet : Obligations.IllegalAddressFirstMet :=
  fun _ _ _ _ hi h hf => exec_of_illegal h hi hf

/-- Settles O10: a sum in range is no overflow, so it is written. -/
theorem addWritesSum : Obligations.AddWritesSum := by
  intro s e a b d h hd ha hr
  rw [exec_eq_effect (.add a b d) h hd ha, effect, if_pos hr]
  rfl

/-- Settles O11: a product in range is no overflow, so it is written. -/
theorem mulWritesProduct : Obligations.MulWritesProduct := by
  intro s e a b d h hd ha hr
  rw [exec_eq_effect (.mul a b d) h hd ha, effect, if_pos hr]
  rfl

theorem inRange_iff (c : Config) (r : Int) :
    inRange c r = true ↔ ∀ n, c.xlen = some n → -(2 ^ (n - 1)) ≤ r ∧ r ≤ 2 ^ (n - 1) - 1 := by
  unfold inRange
  cases c.xlen <;> simp

/-- Settles O12: an exact result that is not in range is the information of the trap (R133). -/
theorem overflowTraps : Obligations.OverflowTraps := by
  refine ⟨?add, ?mul, ?arb, inRange_iff⟩
  case add =>
    intro s e a b d h hd ha hr
    rw [exec_eq_effect (.add a b d) h hd ha, effect, if_neg (ne_true_of_eq_false hr)]
    rfl
  case mul =>
    intro s e a b d h hd ha hr
    rw [exec_eq_effect (.mul a b d) h hd ha, effect, if_neg (ne_true_of_eq_false hr)]
    rfl
  case arb =>
    intro s e a h ha hr
    rw [exec_eq_effect (.arb a) h rfl ha, effect, if_neg (ne_true_of_eq_false hr)]
    rfl

/-- Settles O13: the effect of `lt` writes the truth value of the signed comparison. -/
theorem ltWritesTruth : Obligations.LtWritesTruth := fun _ _ a b d h hd ha => exec_eq_effect (.lt a b d) h hd ha

/-- Settles O14: the effect of `eq` writes the truth value of the equality. -/
theorem eqWritesTruth : Obligations.EqWritesTruth := fun _ _ a b d h hd ha => exec_eq_effect (.eq a b d) h hd ha

/-- Settles O15: the effect of `jt` reads both operands and checks neither as an address of a jump (R152). -/
theorem jtJumpsIfNonzero : Obligations.JtJumpsIfNonzero := fun _ _ a b h ha => exec_eq_effect (.jt a b) h rfl ha

/-- Settles O16: the effect of `jf` reads both operands and checks neither as an address of a jump (R152). -/
theorem jfJumpsIfZero : Obligations.JfJumpsIfZero := fun _ _ a b h ha => exec_eq_effect (.jf a b) h rfl ha

/-- Settles O22: a sum in range is no overflow, so it is the new `rb`. -/
theorem arbAddsToBase : Obligations.ArbAddsToBase := by
  intro s e a h ha hr
  rw [exec_eq_effect (.arb a) h rfl ha, effect, if_pos hr]

/-- Settles O23: `halt` accesses no address, so it has its effect in every state. -/
theorem haltHalts : Obligations.HaltHalts := fun _ _ h => exec_halt h

/-! ### Input -/

theorem nextInput_queue_nil {e : Engine} (hs : e.straps.source = .queue) (hq : e.inq = []) (c : Config) (i : Nat) :
    nextInput c i e = (none, e) := by
  simp only [nextInput, hs, hq]

theorem nextInput_queue_cons {e : Engine} (hs : e.straps.source = .queue) {v : Word} {q : List Word}
    (hq : e.inq = v :: q) (c : Config) (i : Nat) : nextInput c i e = (some v, { e with inq := q }) := by
  simp only [nextInput, hs, hq]

theorem nextInput_callback {e : Engine} (hs : e.straps.source = .callback) (c : Config) (i : Nat) :
    nextInput c i e = (callbackAnswer c i e, { e with draws := e.draws + 1 }) := by
  simp only [nextInput, hs]

/-- Settles O51: the two outcomes of a `QUEUE` source, by the queue. -/
theorem queueSourceIsFifo : Obligations.QueueSourceIsFifo :=
  fun c i _ hs => ⟨fun hq => nextInput_queue_nil hs hq c i, fun _ _ hq => nextInput_queue_cons hs hq c i⟩

section
variable {s : State} {e e' : Engine}

/-- `in` that was given a value. -/
theorem inputEffect_some {v : Word} (hn : nextInput s.cfg s.cursor e = (some v, e')) (dst : Nat) :
    inputEffect s e dst =
      after s { e' with
        life := .running, inputFailed := false, mem := e.mem.write dst v, ip := e.ip + 2 } .complete := by
  simp only [inputEffect, hn]

/-- `in` that was given none, under each `STARVE_POLICY`. -/
theorem inputEffect_suspend (hn : nextInput s.cfg s.cursor e = (none, e')) (hs : e.straps.starve = .suspend)
    (dst : Nat) :
    inputEffect s e dst = after s { e' with life := .waitingForInput, inputFailed := true } .suspend := by
  simp only [inputEffect, hn, hs]

theorem inputEffect_fatal (hn : nextInput s.cfg s.cursor e = (none, e')) (hs : e.straps.starve = .fatal) (dst : Nat) :
    inputEffect s e dst = takeTrap s e inputUnderflow := by
  simp only [inputEffect, hn, hs]

theorem inputEffect_signal (hn : nextInput s.cfg s.cursor e = (none, e')) (hs : e.straps.starve = .signal)
    (dst : Nat) :
    inputEffect s e dst =
      after s { e' with
        life := .running, inputFailed := true, mem := e.mem.write dst Config.noValue, ip := e.ip + 2 } .stall := by
  simp only [inputEffect, hn, hs]

end

/-- Settles O17: the queue gives its front (R226). -/
theorem inputDeliversQueued : Obligations.InputDeliversQueued := by
  intro s e d v q h hd ha hs hq
  rw [exec_eq_effect (.inp d) h hd ha, effect, inputEffect_some (nextInput_queue_cons hs hq _ _)]

/-- Settles O18: an empty queue gives none, and the policy decides (R160). -/
theorem inputStarvesByPolicy : Obligations.InputStarvesByPolicy := by
  intro s e d h hd ha hs hq
  have hn := nextInput_queue_nil hs hq s.cfg s.cursor
  rw [exec_eq_effect (.inp d) h hd ha, effect]
  refine ⟨?suspend, ?fatal, ?signal⟩
  case suspend => exact fun hp => by rw [inputEffect_suspend hn hp]
  case fatal => exact fun hp => by rw [inputEffect_fatal hn hp, inputUnderflow]
  case signal => exact fun hp => by rw [inputEffect_signal hn hp, Config.noValue]

theorem callbackAnswer_eq_some_iff (c : Config) (i : Nat) (e : Engine) (v : Word) :
    callbackAnswer c i e = some v ↔ Config.hostAnswer i e.draws = some v ∧ inRange c v = true := by
  unfold callbackAnswer
  cases Config.hostAnswer i e.draws with
  | none => simp
  | some u =>
    dsimp only
    split
    · constructor
      · rintro ⟨⟩
        exact ⟨rfl, ‹_›⟩
      · exact And.left
    · rename_i hu
      exact ⟨nofun, fun ⟨huv, hv⟩ => absurd (Option.some.inj huv ▸ hv) hu⟩

/-- Settles O19: the source is asked once, and its answer is delivered or the policy decides (R227). -/
theorem inputAsksCallback : Obligations.InputAsksCallback := by
  refine ⟨callbackAnswer_eq_some_iff, fun s e d h hd ha hs => ?_⟩
  have hn := nextInput_callback hs s.cfg s.cursor
  rw [exec_eq_effect (.inp d) h hd ha, effect]
  cases hv : callbackAnswer s.cfg s.cursor e with
  | some v => exact congrArg _ (inputEffect_some (hn.trans (by rw [hv])) _)
  | none =>
    rw [hv] at hn
    cases hp : e.straps.starve with
    | suspend => exact congrArg _ (inputEffect_suspend hn hp _)
    | fatal => exact congrArg _ (inputEffect_fatal hn hp _)
    | signal => exact congrArg _ (inputEffect_signal hn hp _)

/-! ### Output -/

/-- The sink of an engine that is not the router's: the host is handed the value if it listens (R229, R230). -/
theorem acceptOutput_host {s : State} {e : Engine} (h : e.straps.sink = .record ∨ s.cfg.topology = .single) (v : Word) :
    acceptOutput s e v =
      s.setCurrent { e with handed := e.handed ++ (if e.straps.sink = .callback then [v] else []) } := by
  rcases acceptOutput_cases s e v with ⟨hk, ha⟩ | ⟨hk, -, ha⟩ | ⟨hk, htop, -⟩
  · simp [ha, hk]
  · simp [ha, hk]
  · rcases h with hr | hsingle
    · cases hk.symm.trans hr
    · cases htop.symm.trans hsingle

/-- Settles O20: what `out` leaves of its engine, and what the sink adds to it (R161). -/
theorem outputToHost : Obligations.OutputToHost := by
  intro s e a h ha hk
  rw [exec_eq_effect (.out a) h rfl ha, effect, acceptOutput_host (e := outputEngine e _) hk]
  rfl

/-- Settles O21: the sink of a network engine is the router (R245). -/
theorem outputToRouter : Obligations.OutputToRouter := by
  intro s e a h ha hk htop
  rw [exec_eq_effect (.out a) h rfl ha, effect, acceptOutput_network_callback (e := outputEngine e _) htop hk]
  rfl

end Sys2Proof.Machine
end

section
/-!
PROOFS of the statements about the cycle, the step and the driving commands (spec/40_execution_cycle.md), and about the
network's step (spec/60_exceptions.md R242 to R244): each case of the cycle as an equation, then the runs made of them.
-/

namespace Sys2Proof.Machine

section
variable {s : State} {e : Engine}

/-! ### The cases of the cycle -/

theorem cycle_terminal (h : s.current = some e) (ht : e.life = .halted ∨ e.life = .faulted) :
    cycle s = .next (s.answer .idle) := by
  simp only [cycle, h, (isTerminal_iff e).mpr ht, if_true]

theorem isTerminal_eq_false (h1 : e.life ≠ .halted) (h2 : e.life ≠ .faulted) : isTerminal e = false := by
  rw [← Bool.not_eq_true, isTerminal_iff]
  exact not_or.mpr ⟨h1, h2⟩

/-- A cycle whose fetch or decode traps. -/
theorem cycle_trap {t : Trap} (h : s.current = some e) (h1 : e.life ≠ .halted) (h2 : e.life ≠ .faulted)
    (hf : fetchDecode e = .error t) : cycle s = .next (takeTrap s e t) := by
  simp only [cycle, h, isTerminal_eq_false h1 h2, hf, Bool.false_eq_true, if_false]

/-- A cycle that executes the instruction it fetched. -/
theorem cycle_exec {i : Instr} (h : s.current = some e) (h1 : e.life ≠ .halted) (h2 : e.life ≠ .faulted)
    (hf : fetchDecode e = .ok i) : cycle s = exec i s := by
  simp only [cycle, h, isTerminal_eq_false h1 h2, hf, Bool.false_eq_true, if_false]

theorem fetchDecode_outside (h : inMemory e e.ip = false) : fetchDecode e = .error (illegalAddress e.ip) := by
  simp only [fetchDecode, memRead_bind, h, Bool.false_eq_true, if_false]

theorem fetchDecode_ok {i : Instr} (h : inMemory e e.ip = true) (hd : decode (e.mem.read e.ip.toNat) = .ok i) :
    fetchDecode e = .ok i := by
  simp only [fetchDecode, memRead_bind, h, hd, if_true]
  rfl

theorem fetchDecode_error {r : IllegalReason} (h : inMemory e e.ip = true)
    (hd : decode (e.mem.read e.ip.toNat) = .error r) :
    fetchDecode e = .error (illegalInstruction r (e.mem.read e.ip.toNat)) := by
  simp only [fetchDecode, memRead_bind, h, hd, if_true]

/-! ### The step by its configuration -/

theorem step_single (h : s.cfg.topology = .single) : step s = cycle s := by simp only [step, h]

theorem step_network_running {t : State} (h : s.cfg.topology = .network) (hr : s.netState = .running)
    (hc : cycle s = .next t) : step s = .next (afterCycle t) := by
  simp only [step, h, networkCycle, hr, hc, if_true]

theorem step_network_ended (h : s.cfg.topology = .network) (hr : s.netState ≠ .running) : step s = .next s := by
  simp only [step, h, networkCycle, hr, if_false]

end

/-- Settles O29: the two outcomes of the read at `ip`, and of decode where it succeeds (R101, R102). -/
theorem fetchAtIp : Obligations.FetchAtIp := by
  refine fun s e h h1 h2 => ⟨fun hout => ?outside, fun hlo hhi => ?inside⟩
  case outside => exact cycle_trap h h1 h2 (fetchDecode_outside (inMemory_eq_false_iff.mpr hout))
  case inside =>
    have hm := inMemory_eq_true_iff.mpr ⟨hlo, hhi⟩
    exact ⟨fun i hd => cycle_exec h h1 h2 (fetchDecode_ok hm hd),
      fun r hd => cycle_trap h h1 h2 (fetchDecode_error hm hd)⟩

/-- Settles O28: the cycle is `exec` of the decoded instruction, and the step is made of the cycle. -/
theorem stepRunsDecoded : Obligations.StepRunsDecoded := by
  intro s e i h h1 h2 hlo hhi hd
  have hc : cycle s = exec i s := cycle_exec h h1 h2 (fetchDecode_ok (inMemory_eq_true_iff.mpr ⟨hlo, hhi⟩) hd)
  refine ⟨fun htop => (step_single htop).trans hc, fun htop hr t ht => ?_, step_network_ended⟩
  exact step_network_running htop hr (hc.trans ht)

/-- Settles O30: with one engine the step is the cycle, which takes the trap of decode (R201). -/
theorem illegalWordFaults : Obligations.IllegalWordFaults := by
  intro s e r htop h h1 h2 hlo hhi hd
  have hm := inMemory_eq_true_iff.mpr ⟨hlo, hhi⟩
  exact (step_single htop).trans (cycle_trap h h1 h2 (fetchDecode_error hm hd))

/-- Settles O39: a cycle answers a next state, and so does the scheduler's work after it. -/
theorem stepAlwaysAnswersNext : Obligations.StepAlwaysAnswersNext := by
  intro s hcur
  obtain ⟨e, he⟩ := Option.ne_none_iff_exists'.mp hcur
  obtain ⟨t, ht⟩ := cycle_next he
  cases htop : s.cfg.topology with
  | single => exact ⟨t, (step_single htop).trans ht⟩
  | network =>
    by_cases hr : s.netState = .running
    · exact ⟨_, step_network_running htop hr ht⟩
    · exact ⟨s, step_network_ended htop hr⟩

/-! ### Events -/

/-- No event of an instruction that moves its engine is a fault. -/
theorem LocalMove.event_ne_fault {c : Config} {i : Instr} {e e' : Engine} {ev : Event} (h : LocalMove c i e e' ev) :
    ev ≠ .fault := by
  rcases h.event with ⟨rfl, -⟩ | ⟨rfl, -⟩ | ⟨rfl, -⟩ | ⟨rfl, -⟩ <;> decide

theorem Ended.trap_of_fault {s t : State} {i : Instr} {e : Engine} (h : Ended s i e t) (hr : t.reply = some .fault) :
    ∃ tr, TrapOk tr ∧ t = takeTrap s e tr := by
  cases h with
  | trap tr hok => exact ⟨tr, hok, rfl⟩
  | move e' ev h => exact absurd (Option.some.inj hr) h.event_ne_fault
  | output => cases hr

/-- Settles O31: only a trap gives the event `Fault`, and it writes the lifecycle and the record alone (R208). -/
theorem faultsArePrecise : Obligations.FaultsArePrecise := by
  intro s t e h h1 h2 hc hr
  have htrap : ∃ tr, TrapOk tr ∧ t = takeTrap s e tr := by
    rcases cycle_ended h hc with ⟨ht, -⟩ | ⟨-, htrap | ⟨i, -, hend⟩⟩
    · exact absurd ht (not_or.mpr ⟨h1, h2⟩)
    · exact htrap
    · exact hend.trap_of_fault hr
  obtain ⟨tr, ⟨hdest, hreason⟩, rfl⟩ := htrap
  exact ⟨tr.cause, tr.reason, tr.info, rfl, hdest, hreason⟩

/-- The table of R121 for a move of the engine `e`. -/
theorem EngineMove.event {c : Config} {e e' : Engine} {ev : Event} (h : EngineMove c e e' ev) :
    (ev = .complete ∧ e'.life = .running)
      ∨ (∃ v, ev = .output v ∧ e'.life = .running ∧ e'.lastOutput = some v)
      ∨ (ev = .halt ∧ e'.life = .halted)
      ∨ (ev = .suspend ∧ e'.life = .waitingForInput ∧ e.straps.starve = .suspend)
      ∨ (ev = .stall ∧ e'.life = .running ∧ e.straps.starve = .signal)
      ∨ (ev = .fault ∧ e'.life = .faulted) := by
  cases h with
  | trap => exact .inr (.inr (.inr (.inr (.inr ⟨rfl, rfl⟩))))
  | move i _ _ _ h =>
    rcases h.event with hc | hh | ⟨hev, hl, hs, -⟩ | hst
    · exact .inl hc
    · exact .inr (.inr (.inl hh))
    · exact .inr (.inr (.inr (.inl ⟨hev, hl, hs⟩)))
    · exact .inr (.inr (.inr (.inr (.inl hst))))
  | output v => exact .inr (.inl ⟨v, rfl, rfl, rfl⟩)
  | handed v => exact .inr (.inl ⟨v, rfl, rfl, rfl⟩)

/-- Settles O32: the cycle moves its engine, whose queue alone the router can touch after that (R121). -/
theorem eventAndLifecycle : Obligations.EventAndLifecycle := by
  intro s e h h1 h2
  obtain ⟨t, hc⟩ := cycle_next h
  rcases cycle_engine h hc with ⟨ht, -⟩ | ⟨-, e', ev, hg, hcur, hr, hmove⟩
  · exact absurd ht (not_or.mpr ⟨h1, h2⟩)
  · obtain ⟨q, hq⟩ := hg.engine s.cursor e' (current_setCurrent s e e' h)
    refine ⟨t, _, hc, by rw [State.current, hcur, hq], ?_⟩
    simpa only [hr, Option.some.injEq] using hmove.event

/-! ### The driving commands -/

/-- The event of a command that ran no cycle ends every command. -/
theorem endsCommand_idle (c : Command) : endsCommand c .idle = true := by cases c <;> rfl

theorem endsCommand_run_iff (ev : Event) :
    endsCommand .run ev = true ↔ ev = .halt ∨ ev = .suspend ∨ ev = .fault ∨ ev = .idle := by
  cases ev <;> simp [endsCommand]

theorem endsCommand_runToOutput_iff (ev : Event) : endsCommand .runToOutput ev = true ↔ ev ≠ .complete :=
  decide_eq_true_iff

theorem drive_succ_of_ends {c : Command} {s t : State} {ev : Event} (hc : cycle s = .next t)
    (hr : t.reply = some ev) (he : endsCommand c ev = true) (fuel : Nat) : drive c (fuel + 1) s = some t := by
  simp only [drive, hc, hr, he, if_true]

theorem drive_succ_of_not_ends {c : Command} {s t : State} {ev : Event} (hc : cycle s = .next t)
    (hr : t.reply = some ev) (he : endsCommand c ev = false) (fuel : Nat) :
    drive c (fuel + 1) s = drive c fuel t := by
  simp only [drive, hc, hr, he, Bool.false_eq_true, if_false]

theorem drive_noEngine {s : State} (h : s.current = none) (c : Command) (fuel : Nat) : drive c fuel s = none := by
  cases fuel with
  | zero => rfl
  | succ fuel => simp only [drive, cycle_noEngine h]

/-- Settles O33: a terminal engine runs no cycle, and `Idle` ends every command (R119). -/
theorem terminalEngineIgnoresCommands : Obligations.TerminalEngineIgnoresCommands :=
  fun _ _ c fuel h ht => ⟨cycle_terminal h ht, drive_succ_of_ends (cycle_terminal h ht) rfl (endsCommand_idle c) fuel⟩

theorem run_succ_next {s u : State} (h : step s = .next u) (n : Nat) : core.run (n + 1) s = core.run n u := by
  rw [run_succ, h]

/-- From `s` the command `c` returns `t` after `n + 1` steps: the event of the last ends it, and no earlier one does. -/
def ReturnsAfter (c : Command) (n : Nat) (s t : State) : Prop :=
  core.run (n + 1) s = .next t ∧ (∃ ev, t.reply = some ev ∧ endsCommand c ev = true)
    ∧ ∀ m, m < n → ∃ u ev, core.run (m + 1) s = .next u ∧ u.reply = some ev ∧ endsCommand c ev = false

section
variable {c : Command} {n : Nat} {s t u : State} {ev : Event}

theorem returnsAfter_zero (hs : step s = .next u) (hr : u.reply = some ev) :
    ReturnsAfter c 0 s t ↔ u = t ∧ endsCommand c ev = true := by
  rw [ReturnsAfter, run_succ_next hs]
  constructor
  · rintro ⟨hrun, ⟨ev', hr', he⟩, -⟩
    cases hrun
    exact ⟨rfl, Option.some.inj (hr'.symm.trans hr) ▸ he⟩
  · rintro ⟨rfl, he⟩
    exact ⟨rfl, ⟨ev, hr, he⟩, nofun⟩

theorem returnsAfter_succ (hs : step s = .next u) (hr : u.reply = some ev) :
    ReturnsAfter c (n + 1) s t ↔ endsCommand c ev = false ∧ ReturnsAfter c n u t := by
  simp only [ReturnsAfter, run_succ_next hs]
  constructor
  · rintro ⟨hrun, hends, hno⟩
    refine ⟨?first, hrun, hends, fun m hm => ?later⟩
    case first =>
      obtain ⟨u', ev', hu, hr', he⟩ := hno 0 (Nat.succ_pos n)
      cases hu
      exact Option.some.inj (hr'.symm.trans hr) ▸ he
    case later =>
      obtain ⟨u', ev', hu, hr', he⟩ := hno (m + 1) (Nat.succ_lt_succ hm)
      exact ⟨u', ev', hu, hr', he⟩
  · rintro ⟨he, hrun, hends, hno⟩
    refine ⟨hrun, hends, fun m hm => ?_⟩
    cases m with
    | zero => exact ⟨u, ev, rfl, hr, he⟩
    | succ m =>
      obtain ⟨u', ev', hu, hr', he'⟩ := hno m (Nat.lt_of_succ_lt_succ hm)
      exact ⟨u', ev', hu, hr', he'⟩

end

/-- Without a running engine no command returns. -/
theorem not_returnsAfter_noEngine {s : State} (htop : s.cfg.topology = .single) (h : s.current = none) (c : Command)
    (n : Nat) (t : State) : ¬ ReturnsAfter c n s t := by
  rintro ⟨hrun, -⟩
  rw [run_succ, step_single htop, cycle_noEngine h] at hrun
  cases hrun

theorem drive_iff_returnsAfter (c : Command) (fuel : Nat) (s t : State) (htop : s.cfg.topology = .single) :
    drive c fuel s = some t ↔ ∃ n, n < fuel ∧ ReturnsAfter c n s t := by
  induction fuel generalizing s with
  | zero => simp [drive]
  | succ fuel ih =>
    cases h : s.current with
    | none => simp [drive_noEngine h, not_returnsAfter_noEngine htop h]
    | some e =>
      obtain ⟨u, hc⟩ := cycle_next h
      obtain ⟨ev, hr⟩ := cycle_reply hc
      have hs : step s = .next u := (step_single htop).trans hc
      rw [Nat.exists_lt_succ_left, returnsAfter_zero hs hr]
      simp only [returnsAfter_succ hs hr]
      cases he : endsCommand c ev with
      | true => simp [drive_succ_of_ends hc hr he]
      | false => simp [drive_succ_of_not_ends hc hr he, ih u (by rw [cycle_cfg hc]; exact htop)]

/-- Settles O34: a command looks at the event of each cycle in turn (R115 to R118). -/
theorem commandsRunUntilTheirEvent : Obligations.CommandsRunUntilTheirEvent :=
  ⟨drive_iff_returnsAfter, fun _ => rfl, endsCommand_run_iff, endsCommand_runToOutput_iff⟩

/-! ### The network's step -/

/-- Settles O59: every step of a network that has ended answers the state it was given. -/
theorem endedNetworkStands : Obligations.EndedNetworkStands := by
  intro s htop hr n
  induction n with
  | zero => rfl
  | succ n ih => rw [run_succ_next (step_network_ended htop hr), ih]

theorem afterCycle_complete {s : State} (h : s.reply = some .complete) : afterCycle s = s := by
  simp only [afterCycle, h]

theorem afterCycle_ends {s : State} {ev : Event} (h : s.reply = some ev) (hne : ev ≠ .complete) :
    afterCycle s = endVisit s ev := by
  unfold afterCycle
  cases ev <;> simp_all

/-- A cycle of a running network that completes leaves the network running: only an output can stop it. -/
theorem cycle_complete_running {s t : State} (hc : cycle s = .next t) (hr : t.reply = some .complete)
    (hrun : s.netState = .running) : t.netState = .running := by
  rcases cycle_status hc with ⟨hsame, -⟩ | ⟨-, -, v, hv⟩
  · exact hsame.trans hrun
  · cases hv.symm.trans hr

/-- The steps of a running network come to the end of the visit and the scheduler's work after it. -/
theorem visit_reached {fuel : Nat} {s u : State} {ev : Event} (htop : s.cfg.topology = .network)
    (hrun : s.netState = .running) (hv : visit fuel s = some u) (hr : u.reply = some ev) :
    ∃ n, 1 ≤ n ∧ n ≤ fuel ∧ core.run n s = .next (endVisit u ev) := by
  unfold visit at hv
  induction fuel generalizing s with
  | zero => cases hv
  | succ fuel ih =>
    cases h : s.current with
    | none => simp [drive_noEngine h] at hv
    | some e =>
      obtain ⟨w, hc⟩ := cycle_next h
      obtain ⟨ev', hw⟩ := cycle_reply hc
      have hs := step_network_running htop hrun hc
      by_cases hcomplete : ev' = .complete
      · subst hcomplete
        rw [drive_succ_of_not_ends hc hw rfl] at hv
        rw [afterCycle_complete hw] at hs
        obtain ⟨n, hn1, hn, hrunN⟩ := ih (by rw [cycle_cfg hc]; exact htop) (cycle_complete_running hc hw hrun) hv
        exact ⟨n + 1, by omega, by omega, by rw [run_succ_next hs, hrunN]⟩
      · rw [drive_succ_of_ends hc hw ((endsCommand_runToOutput_iff ev').mpr hcomplete)] at hv
        cases hv
        obtain rfl : ev' = ev := Option.some.inj (hw.symm.trans hr)
        rw [afterCycle_ends hw hcomplete] at hs
        exact ⟨1, le_rfl, by omega, run_succ_next hs 0⟩

/-- What a network's step of a running network is made of. -/
theorem netStep_cases {fuel : Nat} {s t : State} (hrun : s.netState = .running) (h : netStep fuel s = some t) :
    ∃ u ev, visit fuel s = some u ∧ u.reply = some ev ∧ t = endVisit u ev := by
  unfold netStep at h
  rw [if_pos hrun] at h
  split at h
  · cases h
  · rename_i u hu
    split at h
    · rename_i ev hev
      exact ⟨u, ev, hu, hev, (Option.some.inj h).symm⟩
    · cases h

/-- Settles O58: a visit is a run of cycles that complete, each of them a step, and one cycle that does not. -/
theorem networkStepIsReached : Obligations.NetworkStepIsReached := by
  intro fuel s t htop hrun h
  obtain ⟨u, ev, hv, hr, rfl⟩ := netStep_cases hrun h
  exact visit_reached htop hrun hv hr

end Sys2Proof.Machine
end

section
/-!
PROOFS of the frames (spec/10_state.md section 1): for each family of instructions the few forms the machine can have
after one of them, and what those forms leave alone; and of the statements about a single memory access.
-/

namespace Sys2Proof.Machine

/-! ### Memory access -/

/-- Settles O6: a write is checked, and a memory in canonical form keeps it (R55). -/
theorem memWriteCell : Obligations.MemWriteCell := by
  refine fun e a v hwf => ⟨fun hout => ?outside, fun hlo hhi => ?inside⟩
  case outside => exact if_neg (ne_true_of_eq_false (inMemory_eq_false_iff.mpr hout))
  case inside =>
    exact ⟨_, memWrite_ok (inMemory_eq_true_iff.mpr ⟨hlo, hhi⟩) v, write_wf _ _ hwf, read_write_same _ _ hwf,
      fun _ hb => read_write_other hb⟩

theorem outAddress_eq_ite (e : Engine) (m : Mode) (p : Word) :
    outAddress e m p =
      if 0 ≤ effectiveAddress e m p ∧ effectiveAddress e m p < e.straps.capacity then .ok (effectiveAddress e m p)
      else .error (illegalAddress (effectiveAddress e m p)) :=
  (checkAddress_bind e _ _).trans (if_congr inMemory_eq_true_iff rfl rfl)

/-- Settles O8: the output address is the effective address, checked (R107). -/
theorem outputAddressByMode : Obligations.OutputAddressByMode :=
  fun e p => ⟨outAddress_eq_ite e .position p, outAddress_eq_ite e .relative p⟩

/-! ### What an instruction can come to -/

section
variable {s t : State} {e : Engine}

/-- An instruction traps, or has its effect. -/
theorem exec_trap_or_effect {i : Instr} (h : s.current = some e) (hx : exec i s = .next t) :
    (∃ tr, t = takeTrap s e tr) ∨ t = effect s e i := by
  cases hw : i.wellFormed with
  | false =>
    rw [exec_illFormed h hw] at hx
    cases hx
    exact .inl ⟨_, rfl⟩
  | true =>
    cases hf : firstIllegal e i with
    | some x =>
      rw [exec_of_illegal h hw hf] at hx
      cases hx
      exact .inl ⟨_, rfl⟩
    | none =>
      rw [exec_of_legal h hw hf] at hx
      cases hx
      exact .inr rfl

/-- What checks its result traps, or ends as if it had not checked. -/
theorem ite_after_cases {p : Prop} [Decidable p] {e' : Engine} {ev : Event} {tr : Trap}
    (ht : t = if p then after s e' ev else takeTrap s e tr) : (∃ tr, t = takeTrap s e tr) ∨ t = after s e' ev := by
  split at ht
  · exact .inr ht
  · exact .inl ⟨tr, ht⟩

/-- `add`, `mul`, `lt` and `eq` trap, or write one value to the output address. -/
theorem exec_compute_cases {i : Instr} {a b d : Mode}
    (hi : i ∈ [Instr.add a b d, Instr.mul a b d, Instr.lt a b d, Instr.eq a b d]) (h : s.current = some e)
    (hx : exec i s = .next t) :
    (∃ tr, t = takeTrap s e tr) ∨ ∃ v, t = after s (computeEngine e (paramAddress e d 3) v) .complete := by
  rcases exec_trap_or_effect h hx with htrap | heffect
  · exact .inl htrap
  · simp only [List.mem_cons, List.not_mem_nil, or_false] at hi
    rcases hi with rfl | rfl | rfl | rfl
    · exact (ite_after_cases heffect).imp_right fun ht => ⟨_, ht⟩
    · exact (ite_after_cases heffect).imp_right fun ht => ⟨_, ht⟩
    · exact .inr ⟨_, heffect⟩
    · exact .inr ⟨_, heffect⟩

/-- `jt`, `jf`, `arb` and `halt` trap, or write the registers, `rb` in an `arb` only. -/
theorem exec_register_cases {i : Instr} {a b : Mode} (hi : i ∈ [Instr.jt a b, Instr.jf a b, Instr.arb a, Instr.halt])
    (h : s.current = some e) (hx : exec i s = .next t) :
    (∃ tr, t = takeTrap s e tr)
      ∨ ∃ l ip rb ev, t = after s { e with life := l, ip := ip, rb := rb } ev ∧ (i ≠ .arb a → rb = e.rb) := by
  rcases exec_trap_or_effect h hx with htrap | heffect
  · exact .inl htrap
  · simp only [List.mem_cons, List.not_mem_nil, or_false] at hi
    rcases hi with rfl | rfl | rfl | rfl
    · exact .inr ⟨_, _, _, _, heffect, fun _ => rfl⟩
    · exact .inr ⟨_, _, _, _, heffect, fun _ => rfl⟩
    · exact (ite_after_cases heffect).imp_right fun ht => ⟨_, _, _, _, ht, fun hne => absurd rfl hne⟩
    · exact .inr ⟨_, _, _, _, heffect, fun _ => rfl⟩

/-- A source that has nothing to supply leaves the queue as it was. -/
theorem nextInput_none {c : Config} {i : Nat} {e' : Engine} (h : nextInput c i e = (none, e')) :
    ∃ n, e' = { e with draws := n } := by
  cases hs : e.straps.source with
  | callback =>
    rw [nextInput_callback hs] at h
    exact ⟨_, (congrArg Prod.snd h).symm⟩
  | queue =>
    cases hq : e.inq with
    | nil =>
      rw [nextInput_queue_nil hs hq] at h
      rw [← hq]
      exact ⟨e.draws, (congrArg Prod.snd h).symm⟩
    | cons v q =>
      rw [nextInput_queue_cons hs hq] at h
      cases congrArg Prod.fst h

/-- `in` traps, suspends, or delivers a value to the output address. -/
theorem exec_inp_cases {d : Mode} (h : s.current = some e) (hx : exec (.inp d) s = .next t) :
    (∃ tr, t = takeTrap s e tr)
      ∨ (∃ n, t = after s { e with life := .waitingForInput, draws := n, inputFailed := true } .suspend)
      ∨ ∃ q n b v ev, ev ≠ .suspend ∧ ev ≠ .fault ∧ t = after s { e with
          life := .running, inq := q, draws := n, inputFailed := b
          mem := e.mem.write (paramAddress e d 1).toNat v, ip := e.ip + 2 } ev := by
  rcases exec_trap_or_effect h hx with htrap | heffect
  · exact .inl htrap
  · rw [effect] at heffect
    rcases hn : nextInput s.cfg s.cursor e with ⟨_ | v, e'⟩
    · obtain ⟨n, rfl⟩ := nextInput_none hn
      cases hp : e.straps.starve with
      | suspend => exact .inr (.inl ⟨n, heffect.trans (inputEffect_suspend hn hp _)⟩)
      | fatal => exact .inl ⟨_, heffect.trans (inputEffect_fatal hn hp _)⟩
      | signal =>
        exact .inr (.inr ⟨e.inq, n, true, _, .stall, nofun, nofun, heffect.trans (inputEffect_signal hn hp _)⟩)
    · have hengine := nextInput_engine s.cfg s.cursor e
      rw [hn] at hengine
      obtain ⟨q, n, rfl⟩ : ∃ q n, e' = { e with inq := q, draws := n } := ⟨_, _, hengine⟩
      exact .inr (.inr ⟨q, n, false, v, .complete, nofun, nofun, heffect.trans (inputEffect_some hn _)⟩)

/-- Whatever the sink does, the engine keeps what `out` left but for what the host was handed, and queues grow. -/
theorem acceptOutput_grows (s : State) (e : Engine) (v : Word) :
    ∃ l, QueuesGrow (s.setCurrent { e with handed := l }) (acceptOutput s e v) := by
  rcases acceptOutput_cases s e v with ⟨-, h⟩ | ⟨-, -, h⟩ | ⟨-, -, h⟩ <;> rw [h]
  · exact ⟨e.handed, .refl _⟩
  · exact ⟨_, .refl _⟩
  · exact ⟨e.handed, route_grows _ _ _⟩

/-- The router leaves the cursor, the answer of the network and what the monitor last re-injected alone. -/
theorem route_keeps (s : State) (i : Nat) (v : Word) :
    (route s i v).cursor = s.cursor ∧ (route s i v).natLastY = s.natLastY ∧ (route s i v).netAnswer = s.netAnswer := by
  rcases route_cases s i v with ⟨d, x, -, h⟩ | ⟨-, h⟩ <;> rw [h]
  · rcases deliver_cases { s with acc := s.acc.set i [] } i d x v with ⟨-, hd⟩ | ⟨-, -, -, hd⟩ | ⟨-, -, hd⟩ <;> rw [hd]
    · exact ⟨rfl, rfl, rfl⟩
    · exact ⟨rfl, rfl, rfl⟩
    · exact ⟨rfl, rfl, rfl⟩
  · exact ⟨rfl, rfl, rfl⟩

theorem acceptOutput_keeps (s : State) (e : Engine) (v : Word) :
    (acceptOutput s e v).cursor = s.cursor ∧ (acceptOutput s e v).natLastY = s.natLastY
      ∧ (acceptOutput s e v).netAnswer = s.netAnswer := by
  rcases acceptOutput_cases s e v with ⟨-, h⟩ | ⟨-, -, h⟩ | ⟨-, -, h⟩ <;> rw [h]
  · exact ⟨rfl, rfl, rfl⟩
  · exact ⟨rfl, rfl, rfl⟩
  · exact route_keeps _ _ _

/-- `out` leaves an engine that keeps all but its lifecycle, its fault record, `ip` and the output registers; after that
queues grow. -/
theorem exec_out_cases {a : Mode} (h : s.current = some e) (hx : exec (.out a) s = .next t) :
    ∃ e', QueuesGrow (s.setCurrent e') t
      ∧ (e'.mem = e.mem ∧ e'.rb = e.rb ∧ e'.inputFailed = e.inputFailed ∧ e'.draws = e.draws ∧ e'.straps = e.straps
        ∧ e'.inq = e.inq)
      ∧ t.cursor = s.cursor ∧ t.natLastY = s.natLastY ∧ t.netAnswer = s.netAnswer := by
  rcases exec_trap_or_effect h hx with ⟨tr, rfl⟩ | rfl
  · exact ⟨raise e tr, .of_eng rfl rfl, ⟨rfl, rfl, rfl, rfl, rfl, rfl⟩, rfl, rfl, rfl⟩
  · obtain ⟨l, hg⟩ := acceptOutput_grows s (outputEngine e (operandValue e a 1)) (operandValue e a 1)
    exact ⟨_, hg.trans (.of_eng rfl rfl), ⟨rfl, rfl, rfl, rfl, rfl, rfl⟩, acceptOutput_keeps s _ _⟩

/-- An instruction leaves an engine whose `rb` is as before, unless it is an `arb`; after that queues grow. -/
theorem Ended.base {i : Instr} (hend : Ended s i e t) :
    ∃ e', QueuesGrow (s.setCurrent e') t ∧ (e'.rb = e.rb ∨ ∃ a, i = .arb a) := by
  cases hend with
  | trap tr => exact ⟨raise e tr, .of_eng rfl rfl, .inl rfl⟩
  | move e' ev h => exact ⟨e', .of_eng rfl rfl, h.rb.imp_right And.left⟩
  | output v =>
    obtain ⟨l, hg⟩ := acceptOutput_grows s (outputEngine e v) v
    exact ⟨_, hg.trans (.of_eng rfl rfl), .inl rfl⟩

end

/-! ### The frames -/

/-- Settles O24: of the engine that computes, one cell, `ip` and the lifecycle change at most. -/
theorem computeFrame : Obligations.ComputeFrame := by
  intro i a b d s t e hi h hx
  rcases exec_compute_cases hi h hx with ⟨tr, rfl⟩ | ⟨v, rfl⟩
  · exact ⟨_, current_setCurrent s e _ h, rfl, fun _ _ => rfl, rfl, rfl, rfl, rfl, rfl, rfl, rfl, rfl⟩
  · exact ⟨_, current_setCurrent s e _ h, rfl, fun _ hx => read_write_other hx, rfl, rfl, rfl, rfl, rfl, rfl, rfl, rfl⟩

/-- Settles O25: none of the four writes a cell, and `arb` alone writes `rb`. -/
theorem registerFrame : Obligations.RegisterFrame := by
  intro i a b s t e hi h hx
  rcases exec_register_cases hi h hx with ⟨tr, rfl⟩ | ⟨l, ip, rb, ev, rfl, hrb⟩
  · exact ⟨_, current_setCurrent s e _ h, rfl, fun _ => rfl, fun _ => rfl, rfl, rfl, rfl, rfl, rfl, rfl, rfl⟩
  · exact ⟨_, current_setCurrent s e _ h, rfl, fun _ => rfl, hrb, rfl, rfl, rfl, rfl, rfl, rfl, rfl⟩

/-- Settles O26: `in` writes no cell but when it delivers, and then its event is neither `Suspend` nor `Fault`. -/
theorem inputFrame : Obligations.InputFrame := by
  intro d s t e h hx
  rcases exec_inp_cases h hx with ⟨tr, rfl⟩ | ⟨n, rfl⟩ | ⟨q, n, b, v, ev, hsuspend, hfault, rfl⟩
  · exact ⟨_, current_setCurrent s e _ h, rfl, fun _ _ => rfl, rfl, rfl, rfl, rfl, rfl, fun _ => ⟨rfl, rfl, rfl⟩⟩
  · exact ⟨_, current_setCurrent s e _ h, rfl, fun _ _ => rfl, rfl, rfl, rfl, rfl, rfl, fun _ => ⟨rfl, rfl, rfl⟩⟩
  · refine ⟨_, current_setCurrent s e _ h, rfl, fun _ hx => read_write_other hx, rfl, rfl, rfl, rfl, rfl, ?_⟩
    rintro (hev | hev)
    · exact absurd (Option.some.inj hev) hsuspend
    · exact absurd (Option.some.inj hev) hfault

/-- Settles O27: the sink can hand the value to the host, or the router put values at the back of queues. -/
theorem outputFrame : Obligations.OutputFrame := by
  intro a s t e h hx
  obtain ⟨e', hg, ⟨hmem, hrb, hfailed, hdraws, hstraps, hinq⟩, hcursor, hlast, hanswer⟩ := exec_out_cases h hx
  refine ⟨?running, ?others, by simpa using hg.length, hg.cfg, hcursor, hlast, hanswer⟩
  case running =>
    obtain ⟨q, hq⟩ := hg.engine s.cursor e' (current_setCurrent s e e' h)
    exact ⟨{ e' with inq := e'.inq ++ q }, q, by rw [State.current, hcursor, hq], hmem, hrb, hfailed, hdraws,
      hstraps, by rw [hinq]⟩
  case others =>
    intro j f hj hf
    exact hg.engine j f (by rw [setCurrent_getElem h, if_neg hj, hf])

/-- Settles O35: the running engine's `rb` is as before unless it executes `arb`, and a longer queue moves no `rb`. -/
theorem onlyArbChangesBase : Obligations.OnlyArbChangesBase := by
  intro i s t j f f' hx hf hf' hne
  cases h : s.current with
  | none =>
    rw [exec_noEngine h] at hx
    cases hx
  | some e =>
    obtain ⟨u, hu, hend⟩ := exec_cases h i
    obtain rfl : u = t := Host.Outcome.next.inj (hu.symm.trans hx)
    obtain ⟨e', hg, hrb⟩ := hend.base
    obtain ⟨g, q, hg', rfl⟩ := hg.back hf'
    rw [setCurrent_getElem h] at hg'
    split_ifs at hg' with hj
    · subst hj
      obtain rfl : e = f := Option.some.inj (h.symm.trans hf)
      cases hg'
      exact ⟨rfl, hrb.resolve_left hne⟩
    · obtain rfl : f = g := Option.some.inj (hf.symm.trans hg')
      exact absurd rfl hne

end Sys2Proof.Machine
end

section
/-!
PROOFS of the two equivalences: position and relative mode at `rb = 0` (spec/40_execution_cycle.md R109), and the
machine with a larger memory and a wider word (spec/20_memory.md R53).
-/

namespace Sys2Proof.Machine

/-! ### Relative mode at base 0 -/

@[simp] theorem absoluteMode_eq_immediate_iff (m : Mode) : absoluteMode m = .immediate ↔ m = .immediate := by
  cases m <;> decide

@[simp] theorem absoluteMode_writable (m : Mode) : (absoluteMode m).writable = m.writable := by cases m <;> rfl

@[simp] theorem absoluteInstr_wellFormed (i : Instr) : (absoluteInstr i).wellFormed = i.wellFormed := by
  cases i <;> simp [absoluteInstr, Instr.wellFormed]

theorem inputModes_absoluteInstr (i : Instr) : inputModes (absoluteInstr i) = (inputModes i).map absoluteMode := by
  cases i <;> rfl

theorem outputModes_absoluteInstr (i : Instr) : outputModes (absoluteInstr i) = (outputModes i).map absoluteMode := by
  cases i <;> rfl

theorem paramCount_absoluteInstr (i : Instr) : paramCount (absoluteInstr i) = paramCount i := by cases i <;> rfl

section
variable {e : Engine} (hrb : e.rb = 0)
include hrb

theorem paramAddress_absoluteMode (m : Mode) (k : Nat) : paramAddress e (absoluteMode m) k = paramAddress e m k := by
  cases m with
  | position => rfl
  | immediate => rfl
  | relative => simp [paramAddress, effectiveAddress, absoluteMode, hrb]

theorem operandValue_absoluteMode (m : Mode) (k : Nat) : operandValue e (absoluteMode m) k = operandValue e m k := by
  cases m with
  | position => rfl
  | immediate => rfl
  | relative => exact congrArg (fun a => e.mem.read (Int.toNat a)) (paramAddress_absoluteMode hrb .relative k)

theorem operandAddresses_absoluteMode (k : Nat) (ms : List Mode) :
    operandAddresses e k (ms.map absoluteMode) = operandAddresses e k ms := by
  induction ms generalizing k with
  | nil => rfl
  | cons m ms ih => simp [operandAddresses, ih, paramAddress_absoluteMode hrb]

theorem outputAddresses_absoluteMode (n : Nat) (ms : List Mode) :
    outputAddresses e n (ms.map absoluteMode) = outputAddresses e n ms := by
  simp [outputAddresses, paramAddress_absoluteMode hrb]

theorem accesses_absoluteInstr (i : Instr) : accesses e (absoluteInstr i) = accesses e i := by
  rw [accesses, accesses, inputModes_absoluteInstr, outputModes_absoluteInstr, paramCount_absoluteInstr,
    operandAddresses_absoluteMode hrb, outputAddresses_absoluteMode hrb]

theorem firstIllegal_absoluteInstr (i : Instr) : firstIllegal e (absoluteInstr i) = firstIllegal e i := by
  rw [firstIllegal, firstIllegal, accesses_absoluteInstr hrb]

theorem effect_absoluteInstr (s : State) (i : Instr) : effect s e (absoluteInstr i) = effect s e i := by
  cases i <;> simp only [absoluteInstr, effect, operandValue_absoluteMode hrb, paramAddress_absoluteMode hrb]

end

/-- Settles O40: at base 0 the two modes name the same addresses, and an instruction looks at nothing else of them. -/
theorem relativeIsPositionAtBaseZero : Obligations.RelativeIsPositionAtBaseZero := by
  intro i s e hi h hrb
  have hi' : (absoluteInstr i).wellFormed = true := (absoluteInstr_wellFormed i).trans hi
  cases hf : firstIllegal e i with
  | some x => rw [exec_of_illegal h hi hf, exec_of_illegal h hi' ((firstIllegal_absoluteInstr hrb i).trans hf)]
  | none =>
    rw [exec_of_legal h hi hf, exec_of_legal h hi' ((firstIllegal_absoluteInstr hrb i).trans hf),
      effect_absoluteInstr hrb]

/-! ### A larger memory and a wider word -/

/-- The engine with another capacity. -/
def widenEngine (capacity : Nat) (e : Engine) : Engine := { e with straps := { e.straps with capacity := capacity } }

/-- The machine whose running engine is `e` with another capacity, and whose configuration is `c`. -/
def widen (capacity : Nat) (c : Config) (s : State) (e : Engine) : State :=
  { s.setCurrent (widenEngine capacity e) with cfg := c }

/-- `t'` is `t` on the machine with the capacity and the configuration. -/
def AgreesWidened (capacity : Nat) (c : Config) (t t' : State) : Prop :=
  ∃ e', t.current = some e' ∧ t' = widen capacity c t e'

@[simp] theorem paramAddress_widen (capacity : Nat) (e : Engine) (m : Mode) (k : Nat) :
    paramAddress (widenEngine capacity e) m k = paramAddress e m k := by
  cases m <;> rfl

@[simp] theorem operandValue_widen (capacity : Nat) (e : Engine) (m : Mode) (k : Nat) :
    operandValue (widenEngine capacity e) m k = operandValue e m k := by
  cases m <;> rfl

theorem operandAddresses_widen (capacity : Nat) (e : Engine) (k : Nat) (ms : List Mode) :
    operandAddresses (widenEngine capacity e) k ms = operandAddresses e k ms := by
  induction ms generalizing k with
  | nil => rfl
  | cons m ms ih => simp [operandAddresses, ih]

/-- The capacity plays no part in which addresses are accessed. -/
theorem accesses_widen (capacity : Nat) (e : Engine) (i : Instr) :
    accesses (widenEngine capacity e) i = accesses e i := by
  simp only [accesses, operandAddresses_widen, outputAddresses, paramAddress_widen]
  rfl

section
variable {capacity : Nat} {c : Config} {s t : State} {e : Engine}

theorem inMemory_widen (hcap : e.straps.capacity ≤ capacity) {a : Int} (h : inMemory e a = true) :
    inMemory (widenEngine capacity e) a = true := by
  obtain ⟨hlo, hhi⟩ := inMemory_eq_true_iff.mp h
  exact inMemory_eq_true_iff.mpr ⟨hlo, lt_of_lt_of_le hhi (Int.ofNat_le.mpr hcap)⟩

theorem addressable_widen (hcap : e.straps.capacity ≤ capacity) {i : Instr} (h : Addressable e i) :
    Addressable (widenEngine capacity e) i := by
  intro a ha
  rw [accesses_widen] at ha
  exact inMemory_widen hcap (h a ha)

theorem widen_current (h : s.current = some e) : (widen capacity c s e).current = some (widenEngine capacity e) :=
  current_setCurrent s e _ h

/-- A cycle that leaves its engine as `e'`, on the two machines. -/
theorem after_agrees (h : s.current = some e) (e' : Engine) (ev : Event) :
    AgreesWidened capacity c (after s e' ev) (after (widen capacity c s e) (widenEngine capacity e') ev) := by
  refine ⟨e', current_setCurrent s e e' h, ?_⟩
  simp [after, widen, State.setCurrent, State.answer]

/-- A checked result, on the two machines: where it is in the one range it is in the other. -/
theorem checked_agrees (h : s.current = some e)
    (hrange : ∀ v, inRange s.cfg v = true → inRange c v = true) {r : Int} {e' : Engine}
    {ev : Event} {tr tr' : Trap}
    (hne : (if inRange s.cfg r then after s e' ev else takeTrap s e tr).reply ≠ some .fault) :
    AgreesWidened capacity c (if inRange s.cfg r then after s e' ev else takeTrap s e tr)
      (if inRange (widen capacity c s e).cfg r then after (widen capacity c s e) (widenEngine capacity e') ev
        else takeTrap (widen capacity c s e) (widenEngine capacity e) tr') := by
  by_cases hr : inRange s.cfg r = true
  · rw [if_pos hr, if_pos (show inRange (widen capacity c s e).cfg r = true from hrange r hr)]
    exact after_agrees h e' ev
  · rw [if_neg hr] at hne
    exact absurd rfl hne

/-- `in` of a queue, on the two machines. -/
theorem inputEffect_agrees (h : s.current = some e) (hsource : e.straps.source = .queue) {dst : Nat}
    (hne : (inputEffect s e dst).reply ≠ some .fault) :
    AgreesWidened capacity c (inputEffect s e dst)
      (inputEffect (widen capacity c s e) (widenEngine capacity e) dst) := by
  cases hq : e.inq with
  | cons v q =>
    rw [inputEffect_some (nextInput_queue_cons hsource hq _ _),
      inputEffect_some (nextInput_queue_cons (e := widenEngine capacity e) hsource hq _ _)]
    exact after_agrees h _ _
  | nil =>
    have hn := nextInput_queue_nil hsource hq s.cfg s.cursor
    have hn' := nextInput_queue_nil (e := widenEngine capacity e) hsource hq (widen capacity c s e).cfg
      (widen capacity c s e).cursor
    cases hp : e.straps.starve with
    | suspend =>
      rw [inputEffect_suspend hn hp, inputEffect_suspend hn' hp]
      exact after_agrees h _ _
    | fatal =>
      rw [inputEffect_fatal hn hp] at hne
      exact absurd rfl hne
    | signal =>
      rw [inputEffect_signal hn hp, inputEffect_signal hn' hp]
      exact after_agrees h _ _

/-- An effect that is no trap, on the two machines. -/
theorem effect_agrees (htop : s.cfg.topology = .single) (htop' : c.topology = .single) (h : s.current = some e)
    (hsource : e.straps.source = .queue)
    (hrange : ∀ v, inRange s.cfg v = true → inRange c v = true) (i : Instr)
    (hne : (effect s e i).reply ≠ some .fault) :
    AgreesWidened capacity c (effect s e i) (effect (widen capacity c s e) (widenEngine capacity e) i) := by
  cases i with
  | add a b d =>
    simp only [effect, operandValue_widen, paramAddress_widen] at hne ⊢
    exact checked_agrees h hrange hne
  | mul a b d =>
    simp only [effect, operandValue_widen, paramAddress_widen] at hne ⊢
    exact checked_agrees h hrange hne
  | inp d =>
    simp only [effect, paramAddress_widen] at hne ⊢
    exact inputEffect_agrees h hsource hne
  | out a =>
    simp only [effect, operandValue_widen]
    rw [acceptOutput_host (.inr htop), acceptOutput_host (s := widen capacity c s e) (.inr htop')]
    exact after_agrees h _ _
  | jt a b =>
    simp only [effect, operandValue_widen]
    exact after_agrees h _ _
  | jf a b =>
    simp only [effect, operandValue_widen]
    exact after_agrees h _ _
  | lt a b d =>
    simp only [effect, operandValue_widen, paramAddress_widen]
    exact after_agrees h _ _
  | eq a b d =>
    simp only [effect, operandValue_widen, paramAddress_widen]
    exact after_agrees h _ _
  | arb a =>
    simp only [effect, operandValue_widen] at hne ⊢
    exact checked_agrees h hrange hne
  | halt => exact after_agrees h _ _

/-- A cycle that does not fault, on the two machines. -/
theorem cycle_agrees (htop : s.cfg.topology = .single) (htop' : c.topology = .single) (h : s.current = some e)
    (hsource : e.straps.source = .queue)
    (hcap : e.straps.capacity ≤ capacity)
    (hrange : ∀ v, inRange s.cfg v = true → inRange c v = true) (hc : cycle s = .next t)
    (hne : t.reply ≠ some .fault) :
    ∃ t', cycle (widen capacity c s e) = .next t' ∧ AgreesWidened capacity c t t' := by
  have hcur' : (widen capacity c s e).current = some (widenEngine capacity e) := widen_current h
  rcases cycle_cases h with ⟨ht, hs⟩ | ⟨⟨h1, h2⟩, ⟨tr, -, hs⟩ | ⟨i, hm, hd, hs⟩⟩
  · obtain rfl : s.answer .idle = t := Host.Outcome.next.inj (hs.symm.trans hc)
    exact ⟨_, cycle_terminal hcur' ht, e, h, rfl⟩
  · obtain rfl : takeTrap s e tr = t := Host.Outcome.next.inj (hs.symm.trans hc)
    exact absurd rfl hne
  · obtain ⟨hi, -⟩ := encodeOfDecode _ _ hd
    have hs' : cycle (widen capacity c s e) = exec i (widen capacity c s e) :=
      cycle_exec hcur' h1 h2 (fetchDecode_ok (inMemory_widen hcap hm) hd)
    cases hf : firstIllegal e i with
    | some y =>
      obtain rfl : takeTrap s e (illegalAddress y) = t :=
        Host.Outcome.next.inj ((exec_of_illegal h hi hf).symm.trans (hs.symm.trans hc))
      exact absurd rfl hne
    | none =>
      obtain rfl : effect s e i = t := Host.Outcome.next.inj ((exec_of_legal h hi hf).symm.trans (hs.symm.trans hc))
      have ha := addressable_widen hcap ((addressable_iff e i).mpr hf)
      exact ⟨_, hs'.trans (exec_eq_effect i hcur' hi ha), effect_agrees htop htop' h hsource hrange i hne⟩

end

/-- Settles O41: nothing but the range checks reads the capacity and the width, and they pass on the larger machine. -/
theorem largerMachineAgrees : Obligations.LargerMachineAgrees := by
  intro s t e e' capacity x htop h hsource hcap hrange hstep hne hcur
  have htop' : { s.cfg with xlen := x }.topology = .single := htop
  obtain ⟨t', hc', e'', hcur'', rfl⟩ :=
    cycle_agrees htop htop' h hsource hcap hrange ((step_single htop).symm.trans hstep) hne
  obtain rfl : e'' = e' := Option.some.inj (hcur''.symm.trans hcur)
  exact (step_single (s := widen capacity { s.cfg with xlen := x } s e) htop').trans hc'

end Sys2Proof.Machine
end

section
/-!
PROOFS of the statements about the network's operations (spec/60_exceptions.md section 4), about `PUSH`, and about
construction (spec/70_reset_and_hazards.md section 1).
-/

namespace Sys2Proof.Machine

/-! ### The network -/

/-- `RESERVED_ADDR` is the number of no engine (spec/00_scope.md R8). -/
theorem ne_reserved_of_engine {d : Int} {j n : Nat} (hj : d = j) (hlt : j < n) (hn : n ≤ 255) : d ≠ 255 := by omega

theorem engine_in_bounds {d : Int} {j n : Nat} (hj : d = j) (hlt : j < n) : ¬(d < 0 ∨ (n : Int) ≤ d) := by omega

/-- Settles O54: the three cases of delivery exclude each other, since no engine has the number 255 (R246, R247). -/
theorem routerDelivers : Obligations.RouterDelivers := by
  intro s i d x y
  rcases deliver_cases s i d x y with ⟨hd, h⟩ | ⟨hd, hlo, hhi, h⟩ | ⟨hd, hout, h⟩ <;> rw [h]
  · exact ⟨fun _ => rfl, fun j hj hlt hn => absurd hd (ne_reserved_of_engine hj hlt hn), fun hne => absurd hd hne⟩
  · refine ⟨fun heq => absurd heq hd, fun j hj _ _ f hf => ?_, fun _ hout => ?_⟩
    · subst hj
      exact enqueue_eq (s := { s with netLog := s.netLog ++ [.delivered i j x y] }) hf x y
    · exact absurd hout (not_or.mpr ⟨not_lt.mpr hlo, not_le.mpr hhi⟩)
  · exact ⟨fun heq => absurd heq hd, fun j hj hlt => absurd hout (engine_in_bounds hj hlt), fun _ _ => rfl⟩

theorem endOfPass_not_idle {s : State} (h : idle s = false) : endOfPass s = s := by
  simp only [endOfPass, h, Bool.false_eq_true, if_false]

theorem endOfPass_nothing_held {s : State} (h : s.natHeld = none) : endOfPass s = s := by
  simp only [endOfPass, h, ite_self]

theorem endOfPass_held {s : State} {x y : Word} (hi : idle s = true) (h : s.natHeld = some (x, y)) :
    endOfPass s = if s.natLastY = some y then terminate s y else reinject s x y := by
  simp only [endOfPass, hi, h, if_true]

/-- Settles O56: the branches of the end of a pass, in their order (R251). -/
theorem monitorAtEndOfPass : Obligations.MonitorAtEndOfPass := by
  refine fun s => ⟨endOfPass_not_idle, endOfPass_nothing_held, fun x y hi hh => ?held⟩
  refine ⟨fun hy => ?ends, fun hy f hf => ?reinjects⟩
  case ends =>
    rw [endOfPass_held hi hh, if_pos hy]
    rfl
  case reinjects =>
    rw [endOfPass_held hi hh, if_neg hy]
    exact enqueue_eq (s := { s with natLastY := some y, netLog := _ }) hf x y

section
variable {s : State} {ev : Event}

theorem endVisit_fault {e : Engine} (h : s.current = some e) :
    endVisit s .fault = failNetwork s ⟨s.cursor, e.faultCause, e.faultInfo⟩ := by
  simp only [endVisit, abortNetwork, h, if_true]

theorem endVisit_stopped (hev : ev ≠ .fault) (h : s.netState ≠ .running) : endVisit s ev = s := by
  simp only [endVisit, hev, h, if_false]

theorem endVisit_running (hev : ev ≠ .fault) (h : s.netState = .running) : endVisit s ev = nextEngine s := by
  simp only [endVisit, hev, h, if_true, if_false]

end

/-- Settles O57: a fault first, then a network that no longer runs, then the cursor (R243, R244, R254). -/
theorem schedulerMovesOn : Obligations.SchedulerMovesOn := by
  refine fun s e ev h => ⟨endVisit_fault h, endVisit_stopped, fun hev hr hlast => ?next, fun hev hr hlast => ?pass⟩
  case next => rw [endVisit_running hev hr, nextEngine, if_neg hlast]
  case pass => rw [endVisit_running hev hr, nextEngine, if_pos hlast]

theorem hostPush_single {s : State} {e : Engine} (h : s.current = some e) (htop : s.cfg.topology = .single) (v : Int) :
    hostPush s v =
      if e.straps.source = .queue ∧ inRange s.cfg v = true then some (s.setCurrent { e with inq := e.inq ++ [v] })
      else none := by
  simp only [hostPush, htop, h]

/-- Settles O52: `PUSH` asks for both conditions (R120, R226). -/
theorem pushAppends : Obligations.PushAppends := by
  intro s e v h htop
  rw [hostPush_single h htop]
  refine ⟨fun hs hv => if_pos ⟨hs, hv⟩, fun hno => if_neg fun ⟨hs, hv⟩ => ?_⟩
  rcases hno with hs' | hv'
  · cases hs.symm.trans hs'
  · cases hv.symm.trans hv'

/-! ### A fresh engine -/

theorem freshEngine_fresh (straps : Straps) (mem : Memory) (inq : List Word) :
    FreshEngine (.fresh straps mem inq) ∧ NoFaultRecorded (.fresh straps mem inq) :=
  ⟨⟨rfl, rfl, rfl, rfl, rfl, rfl⟩, rfl, nofun⟩

theorem programAt0_fresh (straps : Straps) (program : List Int) (inq : List Word) :
    ProgramAt0 program (.fresh straps (.ofList 0 program) inq) :=
  fun a _ => read_ofList 0 a program (Nat.zero_le a)

theorem zeroBeyondProgram_fresh (straps : Straps) (program : List Int) (inq : List Word) :
    ZeroBeyondProgram program (.fresh straps (.ofList 0 program) inq) :=
  fun a ha => (read_ofList 0 a program (Nat.zero_le a)).trans (List.getD_eq_default _ _ ha)

theorem memoryOk_fresh {straps : Straps} {program : List Int} (h : program.length ≤ straps.capacity)
    (inq : List Word) : MemoryOk (.fresh straps (.ofList 0 program) inq) := by
  refine ⟨ofList_wf program, fun p hp => ?_⟩
  obtain ⟨-, hlt, -⟩ := mem_ofList hp
  exact lt_of_lt_of_le (by simpa using hlt) h

theorem statusOk_fresh (straps : Straps) (mem : Memory) (inq : List Word) :
    FaultRecordOk (.fresh straps mem inq) ∧ LastOutputOk (.fresh straps mem inq) ∧ WaitingOk (.fresh straps mem inq) :=
  ⟨by simp [FaultRecordOk, Engine.fresh], rfl, nofun⟩

theorem engineValuesOk_fresh {c : Config} (hw : legalWidth c = true) {program : List Int} {inq : List Word}
    (hp : ∀ v ∈ program, inRange c v = true) (hq : ∀ v ∈ inq, inRange c v = true) (straps : Straps) :
    EngineValuesOk c (.fresh straps (.ofList 0 program) inq) := by
  have h0 : inRange c 0 = true := inRange_of_small hw (by decide) (by decide)
  refine ⟨fun p hmem => ?_, h0, h0, hq, nofun, nofun, nofun⟩
  obtain ⟨-, -, hv⟩ := mem_ofList hmem
  exact hp _ hv

/-! ### A fresh machine -/

theorem networkStatusOk_fresh (c : Config) (eng : List Engine) (acc : List (List Word)) :
    NetworkStatusOk (.fresh c eng acc) := by simp [NetworkStatusOk, State.fresh]

theorem networkValuesOk_fresh (c : Config) (eng : List Engine) {acc : List (List Word)} (h : ∀ a ∈ acc, a = []) :
    NetworkValuesOk (.fresh c eng acc) := by
  refine ⟨fun a ha v hv => ?_, nofun, nofun, nofun⟩
  rw [h a ha] at hv
  cases hv

theorem legalWidth_iff (c : Config) : legalWidth c = true ↔ ∀ n, c.xlen = some n → 64 ≤ n := by
  unfold legalWidth
  cases c.xlen <;> simp

theorem legalCapacity_iff (c : Config) (n : Nat) :
    legalCapacity c n = true ↔ 1 ≤ n ∧ inRange c (n + 3) = true := by
  simp only [legalCapacity, Bool.and_eq_true, decide_eq_true_eq]

/-- The conditions of `LOAD` on one engine (R301). -/
structure Loadable (c : Config) (straps : Straps) (program inq0 : List Int) : Prop where
  width : legalWidth c = true
  capacity : legalCapacity c straps.capacity = true
  fits : program.length ≤ straps.capacity
  program : ∀ v ∈ program, inRange c v = true
  inputs : ∀ v ∈ inq0, inRange c v = true
  source : straps.source = .callback → inq0 = []

theorem loadable_iff (c : Config) (straps : Straps) (program inq0 : List Int) :
    loadable c straps program inq0 = true ↔ Loadable c straps program inq0 := by
  have hsource : (straps.source = .queue ∨ inq0 = []) ↔ (straps.source = .callback → inq0 = []) := by
    cases straps.source <;> simp
  simp only [loadable, Bool.and_eq_true, Bool.or_eq_true, List.all_eq_true, decide_eq_true_eq, hsource]
  constructor
  · rintro ⟨⟨⟨⟨⟨h1, h2⟩, h3⟩, h4⟩, h5⟩, h6⟩
    exact ⟨h1, h2, h3, h4, h5, h6⟩
  · rintro ⟨h1, h2, h3, h4, h5, h6⟩
    exact ⟨⟨⟨⟨⟨h1, h2⟩, h3⟩, h4⟩, h5⟩, h6⟩

/-- The invariants hold of a single fresh engine that meets the conditions. -/
theorem inv_fresh_single {c : Config} {straps : Straps} {program inq0 : List Int} (htop : c.topology = .single)
    (h : Loadable c straps program inq0) : Inv (.fresh c [.fresh straps (.ofList 0 program) inq0] []) := by
  refine ⟨⟨⟨h.width, ?_⟩, ?shape, networkValuesOk_fresh c _ nofun, ?_⟩, ?_, ?_, networkStatusOk_fresh c _ _⟩
  case shape =>
    exact (shapeOk_single (s := .fresh c _ _) htop).mpr ⟨rfl, rfl, List.forall_mem_singleton.mpr h.source⟩
  all_goals refine List.forall_mem_singleton.mpr ?_
  · exact h.capacity
  · exact engineValuesOk_fresh h.width h.program h.inputs straps
  · exact memoryOk_fresh h.fits inq0
  · exact statusOk_fresh straps _ inq0

theorem load_eq_ite {c : Config} (htop : c.topology = .single) (straps : Straps) (program inq0 : List Int) :
    load c straps program inq0 =
      if loadable c straps program inq0 = true then some (.fresh c [.fresh straps (.ofList 0 program) inq0] [])
      else none := by
  simp only [load, htop, true_and]

/-- Settles O49: `LOAD` asks for the conditions, and the machine it answers with is fresh (R300, R301). -/
theorem loadConstructs : Obligations.LoadConstructs := by
  intro c straps program inq0 htop
  rw [load_eq_ite htop]
  refine ⟨?refused, fun s hs => ?constructed⟩
  case refused =>
    rw [ite_eq_right_iff, loadable_iff]
    simp only [reduceCtorEq, imp_false, not_iff_not]
    constructor
    · rintro ⟨hw, hc, hfits, hprog, hinq, hsource⟩
      obtain ⟨hpos, hcap⟩ := (legalCapacity_iff c _).mp hc
      exact ⟨(legalWidth_iff c).mp hw, hfits, hprog, hinq, hpos, hcap, hsource⟩
    · rintro ⟨hw, hfits, hprog, hinq, hpos, hcap, hsource⟩
      exact ⟨(legalWidth_iff c).mpr hw, (legalCapacity_iff c _).mpr ⟨hpos, hcap⟩, hfits, hprog, hinq, hsource⟩
  case constructed =>
    split_ifs at hs with hok
    cases hs
    obtain ⟨hfresh, hnofault⟩ := freshEngine_fresh straps (.ofList 0 program) inq0
    exact ⟨inv_fresh_single htop ((loadable_iff ..).mp hok), _, rfl, rfl, hfresh, hnofault,
      programAt0_fresh straps program inq0, zeroBeyondProgram_fresh straps program inq0, rfl, rfl⟩

/-- Settles O48: reset is what `LOAD` of the empty program constructs (R45, log 2). -/
theorem resetMeetsInvariants : Obligations.ResetMeetsInvariants :=
  inv_fresh_single (c := .default) (straps := .default) (program := []) (inq0 := []) rfl
    ((loadable_iff ..).mp (by decide))

/-- Settles O47: every field of the fresh machine (R45). -/
theorem resetState : Obligations.ResetState := by
  obtain ⟨hfresh, hnofault⟩ := freshEngine_fresh .default [] []
  exact ⟨rfl, ⟨_, rfl, rfl, hfresh, hnofault, rfl, rfl, rfl, fun _ => rfl, rfl⟩, rfl, rfl, rfl, rfl, rfl, rfl, rfl⟩

/-! ### The construction of the network -/

theorem legalNetwork_iff (c : Config) : legalNetwork c = true ↔ 1 ≤ c.nEngines ∧ c.nEngines ≤ 255 := by
  rw [legalNetwork, decide_eq_true_iff, Config.reservedAddr]
  omega

/-- What holds of the fresh engine of each capacity and program holds of every engine of the network. -/
theorem forall_mem_networkEngines {P : Engine → Prop} {loads : List (Nat × List Int)}
    (h : ∀ i < loads.length, ∀ l ∈ loads, P (.fresh (.network l.1) (.ofList 0 l.2) [(i : Int)])) :
    ∀ e ∈ networkEngines 0 loads, P e := by
  intro e he
  obtain ⟨j, hj⟩ := List.mem_iff_getElem?.mp he
  rw [networkEngines_getElem] at hj
  obtain ⟨l, hl, rfl⟩ := Option.map_eq_some_iff.mp hj
  rw [Nat.zero_add]
  exact h j (List.getElem?_eq_some_iff.mp hl).1 l (List.mem_of_getElem? hl)

/-- The conditions of the network's construction (R241, R301). -/
structure NetworkLoadable (c : Config) (loads : List (Nat × List Int)) : Prop where
  topology : c.topology = .network
  legal : legalNetwork c = true
  length : loads.length = c.nEngines
  load : ∀ l ∈ loads, Loadable c (.network l.1) l.2 []

/-- The invariants hold of a fresh network that meets the conditions. -/
theorem inv_fresh_network {c : Config} {loads : List (Nat × List Int)} (h : NetworkLoadable c loads)
    (hw : legalWidth c = true) : Inv (.fresh c (networkEngines 0 loads) (loads.map fun _ => [])) := by
  obtain ⟨htop, hlegal, hlen, hload⟩ := h
  obtain ⟨hpos, hmax⟩ := (legalNetwork_iff c).mp hlegal
  have hacc : ∀ a ∈ loads.map (fun _ => ([] : List Word)), a = [] := by simp
  refine ⟨⟨⟨hw, ?capacity⟩, ?shape, networkValuesOk_fresh c _ hacc, ?values⟩, ?memory, ?status,
    networkStatusOk_fresh c _ _⟩
  case capacity => exact forall_mem_networkEngines fun _ _ l hl => (hload l hl).capacity
  case shape =>
    refine (shapeOk_network (s := .fresh c _ _) htop).mpr ⟨hlegal, (networkEngines_length 0 loads).trans hlen,
      (List.length_map _).trans hlen, hpos, fun a ha => ?_, forall_mem_networkEngines fun _ _ _ _ => rfl⟩
    rw [hacc a ha]
    decide
  case values =>
    refine forall_mem_networkEngines fun i hi l hl => engineValuesOk_fresh hw (hload l hl).program ?_ _
    exact List.forall_mem_singleton.mpr (inRange_of_small hw (by omega) (by omega))
  case memory => exact forall_mem_networkEngines fun _ _ l hl => memoryOk_fresh (hload l hl).fits _
  case status => exact forall_mem_networkEngines fun _ _ _ _ => statusOk_fresh _ _ _

theorem freshNetwork_fresh (c : Config) (loads : List (Nat × List Int)) :
    FreshNetwork (.fresh c (networkEngines 0 loads) (loads.map fun _ => [])) := by
  refine ⟨fun i e he => ?_, by simp [State.fresh], rfl, rfl, rfl, rfl, rfl, rfl⟩
  rw [State.fresh, networkEngines_getElem] at he
  obtain ⟨l, -, rfl⟩ := Option.map_eq_some_iff.mp he
  obtain ⟨hfresh, hnofault⟩ := freshEngine_fresh (.network l.1) (.ofList 0 l.2) [((0 + i : Nat) : Int)]
  exact ⟨hfresh, hnofault, by simp [Engine.fresh]⟩

theorem loadNetwork_condition_iff (c : Config) (loads : List (Nat × List Int)) :
    (c.topology = .network ∧ legalNetwork c = true ∧ loads.length = c.nEngines
      ∧ loads.all (fun l => loadable c (.network l.1) l.2 []) = true) ↔ NetworkLoadable c loads := by
  simp only [List.all_eq_true, loadable_iff]
  exact ⟨fun ⟨h1, h2, h3, h4⟩ => ⟨h1, h2, h3, h4⟩, fun ⟨h1, h2, h3, h4⟩ => ⟨h1, h2, h3, h4⟩⟩

/-- A network has an engine, and each load asks for a legal width. -/
theorem NetworkLoadable.width {c : Config} {loads : List (Nat × List Int)} (h : NetworkLoadable c loads) :
    legalWidth c = true := by
  obtain ⟨hpos, -⟩ := (legalNetwork_iff c).mp h.legal
  obtain ⟨l, hl⟩ := List.exists_mem_of_length_pos (l := loads) (by rw [h.length]; omega)
  exact (h.load l hl).width

theorem networkLoadable_iff (c : Config) (loads : List (Nat × List Int)) :
    NetworkLoadable c loads ↔ c.topology = .network ∧ 1 ≤ c.nEngines ∧ c.nEngines ≤ 255 ∧ loads.length = c.nEngines
      ∧ (∀ n, c.xlen = some n → 64 ≤ n)
      ∧ ∀ l ∈ loads, l.2.length ≤ l.1 ∧ (∀ v ∈ l.2, inRange c v = true) ∧ 1 ≤ l.1 ∧ inRange c (l.1 + 3) = true := by
  constructor
  · intro h
    obtain ⟨hpos, hmax⟩ := (legalNetwork_iff c).mp h.legal
    refine ⟨h.topology, hpos, hmax, h.length, (legalWidth_iff c).mp h.width, fun l hl => ?_⟩
    obtain ⟨-, hc, hfits, hprog, -, -⟩ := h.load l hl
    exact ⟨hfits, hprog, (legalCapacity_iff c _).mp hc⟩
  · rintro ⟨htop, hpos, hmax, hlen, hw, hload⟩
    refine ⟨htop, (legalNetwork_iff c).mpr ⟨hpos, hmax⟩, hlen, fun l hl => ?_⟩
    obtain ⟨hfits, hprog, hc⟩ := hload l hl
    exact ⟨(legalWidth_iff c).mpr hw, (legalCapacity_iff c _).mpr hc, hfits, hprog, nofun, nofun⟩

/-- Settles O50: the construction asks for the conditions, and the network it answers with is fresh (R241, R301). -/
theorem networkLoadConstructs : Obligations.NetworkLoadConstructs := by
  intro c loads
  rw [loadNetwork]
  refine ⟨?refused, fun s hs => ?constructed⟩
  case refused =>
    rw [ite_eq_right_iff, loadNetwork_condition_iff, ← networkLoadable_iff]
    simp only [reduceCtorEq, imp_false]
  case constructed =>
    split_ifs at hs with hok
    cases hs
    have hload := (loadNetwork_condition_iff c loads).mp hok
    have hlen := hload.length
    refine ⟨inv_fresh_network hload hload.width, rfl, freshNetwork_fresh c loads,
      (networkEngines_length 0 loads).trans hlen, (List.length_map _).trans hlen, fun i capacity p hl => ?_⟩
    refine ⟨.fresh (.network capacity) (.ofList 0 p) [((0 + i : Nat) : Int)], ?_, programAt0_fresh _ p _,
      zeroBeyondProgram_fresh _ p _, rfl⟩
    rw [State.fresh, networkEngines_getElem, hl]
    rfl

end Sys2Proof.Machine
end
